-- ==== Sys2Proof/Word.lean ====
section
/-! DEFINITION. The two word types of the block (00_scope.md R3, R5): a byte of 8 bits, a word of 16 bits. -/

namespace Sys2Proof

/-- An unsigned 8-bit value: register contents, status byte, bus byte (R5). -/
abbrev Byte := BitVec 8

/-- An unsigned 16-bit value: an address or the program counter (R5). -/
abbrev Word := BitVec 16

end Sys2Proof
end

