-- ==== Sys2Proof/Config.lean ====
section
/-! DEFINITION. What is fixed for the machine and is neither state nor an instruction (00_scope.md R3). -/

namespace Sys2Proof

/-- How many addresses the one address space has, one byte each (00_scope.md R3; 20_memory.md R30). -/
def Config.addressCount : Nat := 65536

/-- What an address that the memory list does not name reads as.
DESIGN CHOICE (entry 1), unsafe: the spec leaves the initial contents to the parameter `mem0` (20_memory.md R33).
A claim over every state still covers every `mem0`, because a list can name every address. -/
def Config.unlistedByte : Byte := 0x00

end Sys2Proof
end

