-- ==== Sys2Proof/Syntax.lean ====
section
/-! DEFINITION. The instructions: the eight rows of spec/opcode_table.json, their addressing modes and operand formats.
Which format a mode has, and how many bytes it takes, is in Machine/Bytes.lean. -/

namespace Sys2Proof

/-- The operand formats of 30_encoding.md R46. -/
inductive Format where
  /-- The operand value itself, one byte. -/
  | imm8
  /-- A zero-page address or pointer location, one byte. -/
  | zp8
  /-- A 16-bit address, two bytes, low byte first. -/
  | abs16
  deriving DecidableEq, Repr

/-- The addressing modes of the eight variants (30_encoding.md R48, R49). -/
inductive Mode where
  | immediate | zeroPage | zeroPageX | absolute | absoluteX | absoluteY | indirectX | indirectY
  deriving DecidableEq, Repr

/-- One constructor per row of the opcode table; the operand has the width its format declares (00_scope.md R8). -/
inductive Instr where
  /-- ADC immediate, 41_adc.md R85. -/
  | adcImm (value : Byte)
  /-- ADC zero-page, 41_adc.md R86. -/
  | adcZero (address : Byte)
  /-- ADC zero-page,X, 41_adc.md R87. -/
  | adcZeroX (address : Byte)
  /-- ADC absolute, 41_adc.md R88. -/
  | adcAbs (address : Word)
  /-- ADC absolute,X, 41_adc.md R89. -/
  | adcAbsX (address : Word)
  /-- ADC absolute,Y, 41_adc.md R90. -/
  | adcAbsY (address : Word)
  /-- ADC (indirect,X), 41_adc.md R91. -/
  | adcIndX (address : Byte)
  /-- ADC (indirect),Y, 41_adc.md R92. -/
  | adcIndY (address : Byte)
  deriving DecidableEq, Repr

/-- The mode an instruction is the variant of. -/
def Instr.mode : Instr → Mode
  | .adcImm _ => .immediate
  | .adcZero _ => .zeroPage
  | .adcZeroX _ => .zeroPageX
  | .adcAbs _ => .absolute
  | .adcAbsX _ => .absoluteX
  | .adcAbsY _ => .absoluteY
  | .adcIndX _ => .indirectX
  | .adcIndY _ => .indirectY

/-- The operand as an unsigned number; no operand is signed (R47). -/
def Instr.operandValue : Instr → Nat
  | .adcImm v | .adcZero v | .adcZeroX v | .adcIndX v | .adcIndY v => v.toNat
  | .adcAbs a | .adcAbsX a | .adcAbsY a => a.toNat

end Sys2Proof
end

