-- ==== Sys2Proof/Machine/Bytes.lean ====
section
/-! DEFINITION. The operand formats' bytes (30_encoding.md R46), byte order and bit-field helpers (00_scope.md R5; 20_memory.md R34). -/

namespace Sys2Proof

/-- The operand format of each mode (R46, R49). -/
def Mode.format : Mode → Format
  | .immediate => .imm8
  | .zeroPage | .zeroPageX | .indirectX | .indirectY => .zp8
  | .absolute | .absoluteX | .absoluteY => .abs16

/-- How many operand bytes follow the opcode byte (R46). -/
def Format.operandBytes : Format → Nat
  | .imm8 | .zp8 => 1
  | .abs16 => 2

end Sys2Proof

namespace Sys2Proof.Machine

/-- `zext_16(b)`: the word with the same value, high byte 0 (R5). -/
def zext16 (b : Byte) : Word := b.setWidth 16

/-- `lo8(w)` (R5). -/
def lo8 (w : Word) : Byte := w.extractLsb' 0 8

/-- `hi8(w)` (R5). -/
def hi8 (w : Word) : Byte := w.extractLsb' 8 8

/-- `hi:lo`, the little-endian combination of a low and a high byte (R5, R34). -/
def hiLo (hi lo : Byte) : Word := hi ++ lo

/-- `b2n(c)` as a byte, for byte arithmetic (R5). -/
def b2b (c : Bool) : Byte := if c then 1 else 0

/-- The carry out of an 8-bit addition (40_addressing.md R66). -/
def addCarry (a b : Byte) : Bool := decide (a.toNat + b.toNat > 255)

end Sys2Proof.Machine
end

