-- ==== Sys2Proof/WellFormed.lean ====
section
/-! DEFINITION. Well-formedness. The spec's one check is the operand's width (00_scope.md R8): a caller supplies one byte for the
imm8 and zp8 formats and two for abs16 (30_encoding.md R46). `Instr` types its operand, so the check has work to do on a call as
a caller hands it over: a mode and the operand bytes supplied (entry 7). -/

namespace Sys2Proof

/-- A call of a variant before its operand is typed: the mode and the operand bytes the caller supplies. -/
structure RawCall where
  mode : Mode
  operand : List Byte
  deriving DecidableEq, Repr

/-- The caller supplied exactly as many operand bytes as the mode's format takes (R46; 00_scope.md R8). -/
def RawCall.wellFormed (c : RawCall) : Bool :=
  c.operand.length == c.mode.format.operandBytes

/-- The operand fits the bytes of its format (00_scope.md R8). Every typed instruction passes (Laws/Decode.lean). -/
def Instr.wellFormed (i : Instr) : Bool :=
  decide (i.operandValue < 256 ^ i.mode.format.operandBytes)

end Sys2Proof
end

