-- ==== Sys2Proof/Decode.lean ====
section
/-! DEFINITION. The byte encoding of 30_encoding.md sections 2 and 3, and after it the encoder.
The opcode bytes are the spec's harness encoding, from general knowledge there (R49; 92_eei_decisions.md D2; entry 2).
The decoder reads the fields of `aaabbbcc`; the encoder writes the opcode column of the same table (R49). -/

namespace Sys2Proof

open Machine (hiLo lo8 hi8)

/-- Why bytes are no instruction. -/
inductive DecodeReject where
  /-- There is no byte to read an opcode from. Safe: the harness always has one (R53). -/
  | noBytes
  /-- The opcode byte is none of the eight of R49 (R50). Safe: refused, as the spec says. -/
  | refusedOpcode (op : Byte)
  /-- Fewer operand bytes than the format takes (R46). Safe: the harness always reads enough (R55; entry 10). -/
  | missingOperand (op : Byte)
  deriving DecidableEq, Repr

/-- The mode field `bbb` of the opcode byte (R49). -/
def modeOfBbb (bbb : BitVec 3) : Option Mode :=
  match bbb with
  | 0b000#3 => some .indirectX
  | 0b001#3 => some .zeroPage
  | 0b010#3 => some .immediate
  | 0b011#3 => some .absolute
  | 0b100#3 => some .indirectY
  | 0b101#3 => some .zeroPageX
  | 0b110#3 => some .absoluteY
  | 0b111#3 => some .absoluteX
  | _ => none

/-- Opcode shape `aaabbbcc` with `aaa = 011` and `cc = 01`; any other byte is refused (R49, R50). -/
def modeOfOpcode (op : Byte) : Option Mode :=
  if op.extractLsb' 5 3 = 0b011#3 ∧ op.extractLsb' 0 2 = 0b01#2 then
    modeOfBbb (op.extractLsb' 2 3)
  else
    none

/-- The instruction's size in the stream, opcode byte included (R46). -/
def Mode.length (m : Mode) : Nat := 1 + m.format.operandBytes

/-- The instruction's size in the stream (R46). -/
def Instr.length (i : Instr) : Nat := i.mode.length

/-- Operand assembly (R47): a word is `b2:b1` with `b1` first in the stream. A wrong number of bytes is no call. -/
def assemble (m : Mode) (operand : List Byte) : Option Instr :=
  match m, operand with
  | .immediate, [b1] => some (.adcImm b1)
  | .zeroPage, [b1] => some (.adcZero b1)
  | .zeroPageX, [b1] => some (.adcZeroX b1)
  | .absolute, [b1, b2] => some (.adcAbs (hiLo b2 b1))
  | .absoluteX, [b1, b2] => some (.adcAbsX (hiLo b2 b1))
  | .absoluteY, [b1, b2] => some (.adcAbsY (hiLo b2 b1))
  | .indirectX, [b1] => some (.adcIndX b1)
  | .indirectY, [b1] => some (.adcIndY b1)
  | _, _ => none

/-- Read one instruction off the front of the bytes, and give the bytes after it (R49, R55, R59). -/
def decode : List Byte → Except DecodeReject (Instr × List Byte)
  | [] => .error .noBytes
  | op :: rest =>
    match modeOfOpcode op with
    | none => .error (.refusedOpcode op)
    | some m =>
      match assemble m (rest.take m.format.operandBytes) with
      | none => .error (.missingOperand op)
      | some i => .ok (i, rest.drop m.format.operandBytes)

/-- The opcode column of R49. -/
def Mode.opcode : Mode → Byte
  | .indirectX => 0x61
  | .zeroPage => 0x65
  | .immediate => 0x69
  | .absolute => 0x6D
  | .indirectY => 0x71
  | .zeroPageX => 0x75
  | .absoluteY => 0x79
  | .absoluteX => 0x7D

/-- The operand bytes in stream order (R46, R47). -/
def Instr.operandBytes : Instr → List Byte
  | .adcImm v | .adcZero v | .adcZeroX v | .adcIndX v | .adcIndY v => [v]
  | .adcAbs a | .adcAbsX a | .adcAbsY a => [lo8 a, hi8 a]

/-- The bytes of an instruction: `opcode, b1` or `opcode, b1 (low), b2 (high)` (R49). -/
def encode (i : Instr) : List Byte := i.mode.opcode :: i.operandBytes

/-- Byte `k` of a number whose bit 0 is the least significant bit of the first byte. -/
def tableByte (w k : Nat) : Byte := BitVec.ofNat 8 (w / 256 ^ k)

/-- The three bytes of a table word of `nbits` bits, every bit above `nbits` zero; three is the longest instruction (R49). -/
def tableBytes (nbits w : Nat) : List Byte :=
  (List.range 3).map (tableByte (w % 2 ^ nbits))

/-- The instruction the decoder reads from a word numbered as spec/opcode_table.json numbers it. -/
def decodeTableWord (nbits w : Nat) : Option Instr :=
  match decode (tableBytes nbits w) with
  | .ok (i, _) => some i
  | .error _ => none

end Sys2Proof
end

