-- ==== Sys2Proof/Machine/State.lean ====
section
/-! DEFINITION. The state as plain data (10_state.md R10, R11; 20_memory.md R33), the ways a step can stop, and reset. -/

namespace Sys2Proof.Machine

/-- The memory handed to the block (20_memory.md R33): pairs of address and byte, in the canonical form `Memory.wf`. -/
abbrev Memory := List Host.Cell

/-- The canonical form from address `lo` on: addresses strictly rising from `lo`, each inside the address space (20_memory.md R30),
and no entry equal to what an unlisted address reads as (entry 1). -/
def Memory.wfFrom (lo : Nat) : Memory → Bool
  | [] => true
  | (k, v) :: m =>
    decide (lo ≤ k) && decide (k < Config.addressCount) && decide (v ≠ Config.unlistedByte) && Memory.wfFrom (k + 1) m

/-- The canonical form of memory. Equal contents are then equal data. -/
def Memory.wf (m : Memory) : Bool := Memory.wfFrom 0 m

/-- The register file: exactly five fields, every combination of values valid (10_state.md R10). -/
structure Registers where
  /-- The accumulator. -/
  A : Byte
  /-- The X index register. -/
  X : Byte
  /-- The Y index register. -/
  Y : Byte
  /-- The status register: the flags, one byte, fields in Machine/Flags.lean (R14). -/
  P : Byte
  /-- The program counter. -/
  PC : Word
  deriving DecidableEq, Repr

/-- The register file and, beside it, the memory (10_state.md R12; 20_memory.md R33). The block has no other state (R11). -/
structure State extends Registers where
  /-- The memory. -/
  mem : Memory
  deriving DecidableEq, Repr

/-- There is no fault: no operation of the block can fail or trap (60_exceptions.md R100; 00_scope.md R7; entry 9). -/
inductive Fault where
  deriving DecidableEq, Repr

/-- Why a step gives a byte no meaning. -/
inductive Refusal where
  /-- An instruction without a meaning in this model. No arm raises it: every instruction has its meaning. Safe. -/
  | notModelled (mnemonic : String)
  /-- The harness's `Refused(PC, op)` (30_encoding.md R54), raised by `step` alone. Safe: the spec refuses the byte as well. -/
  | refusedOpcode (pc : Word) (op : Byte)
  deriving DecidableEq, Repr

/-- Construct-empty: a newly constructed register file (10_state.md R28). -/
def Registers.construct : Registers :=
  { A := 0x00, X := 0x00, Y := 0x00, P := 0x00, PC := 0x0000 }

/-- The machine right after reset (R29), at power-on (70_reset_and_hazards.md R116): every register zero, memory with nothing
listed. The contents of memory are no part of the block's reset (20_memory.md R33; entry 1). -/
def State.reset : State := { Registers.construct with mem := [] }

end Sys2Proof.Machine
end

