-- ==== Sys2Proof/Machine/Flags.lean ====
section
/-! DEFINITION. The status register: masks and fields (10_state.md R14), the flag-set operations (R23 to R27), and the flag
computations of the flag updater (41_adc.md R81). -/

namespace Sys2Proof.Machine

/-! The masks of the named flags (R14). -/

def maskC : Byte := 0x01
def maskZ : Byte := 0x02
def maskI : Byte := 0x04
def maskD : Byte := 0x08
/-- Both bits together (R20). -/
def maskB : Byte := 0x30
def maskV : Byte := 0x40
def maskN : Byte := 0x80

/-! The flag-set operations: pure functions of flag sets (R23 to R27). -/

/-- The empty flag set (R23). -/
def FlagSet.empty : Byte := 0x00

/-- Bitwise AND (R24). -/
def FlagSet.and (p q : Byte) : Byte := p &&& q

/-- Bitwise OR (R24). -/
def FlagSet.or (p q : Byte) : Byte := p ||| q

/-- Bitwise XOR (R24). -/
def FlagSet.xor (p q : Byte) : Byte := p ^^^ q

/-- Bitwise NOT over all eight bits (R24). -/
def FlagSet.not (p : Byte) : Byte := 0xFF ^^^ p

/-- Test-if-set: every flag of `m` is set in `p` (R25; the "all" reading, entry 12). -/
def FlagSet.test (p m : Byte) : Bool := (p &&& m) == m

/-- Set or clear the flags of `m` by a condition (R26). -/
def FlagSet.set (p m : Byte) (c : Bool) : Byte := if c then p ||| m else p &&& (0xFF ^^^ m)

/-- Equality of status values: of the bytes, B bits included (R27). -/
def FlagSet.equal (p q : Byte) : Bool := p == q

/-! The named fields of a status byte (R14). A one-bit field is `FlagSet.test` of its mask (R25). -/

def Status.carry (p : Byte) : Bool := FlagSet.test p maskC
def Status.zero (p : Byte) : Bool := FlagSet.test p maskZ
def Status.interruptDisable (p : Byte) : Bool := FlagSet.test p maskI
def Status.decimal (p : Byte) : Bool := FlagSet.test p maskD
/-- The two-bit B-FLAG, P[5:4] (R20). -/
def Status.bField (p : Byte) : BitVec 2 := p.extractLsb' 4 2
def Status.overflow (p : Byte) : Bool := FlagSet.test p maskV
def Status.negative (p : Byte) : Bool := FlagSet.test p maskN

/-! The flag updater's computations (41_adc.md R81): functions of the original accumulator, the operand and the carry in (R94). -/

/-- Step 1: the exact sum, 0 to 511. -/
def adcSum (a value : Byte) (carryIn : Bool) : Nat := a.toNat + value.toNat + carryIn.toNat

/-- Step 2: the unsigned carry out. -/
def adcCarry (a value : Byte) (carryIn : Bool) : Bool := decide (adcSum a value carryIn > 255)

/-- Step 3: the 8-bit result. -/
def adcResult (a value : Byte) (carryIn : Bool) : Byte := BitVec.ofNat 8 (adcSum a value carryIn % 256)

/-- Step 4: equal signs in, the other sign out, with the original accumulator. -/
def adcOverflow (a value result : Byte) : Bool :=
  ((a ^^^ value) &&& 0x80) == 0x00 && ((a ^^^ result) &&& 0x80) == 0x80

/-- Step 5: bit 7 of the result. -/
def adcNegative (result : Byte) : Bool := (result &&& 0x80) == 0x80

/-- Step 6: the result is zero. -/
def adcZeroFlag (result : Byte) : Bool := result == 0x00

end Sys2Proof.Machine
end

