-- ==== Sys2Proof/Machine/Ops.lean ====
section
/-! DEFINITION. The named operations over memory and registers: the bus primitives (20_memory.md R31, R32), register and flag
writes (00_scope.md R6), the register-file reset (10_state.md R29). The block takes no exception, so no operation here enters or
leaves one (60_exceptions.md R100, R104, R105). -/

namespace Sys2Proof.Machine

/-- The byte at address `a`; total (R31). -/
def Memory.read : Memory → Nat → Byte
  | [], _ => Config.unlistedByte
  | (k, v) :: m, a => if a = k then v else Memory.read m a

/-- Store `v` at address `a` and keep the canonical form (R32; entry 1). -/
def Memory.write : Memory → Nat → Byte → Memory
  | [], a, v => if v = Config.unlistedByte then [] else [(a, v)]
  | (k, w) :: m, a, v =>
    if a < k then
      if v = Config.unlistedByte then (k, w) :: m else (a, v) :: (k, w) :: m
    else if a = k then
      if v = Config.unlistedByte then m else (a, v) :: m
    else
      (k, w) :: Memory.write m a v

/-- The bytes at `n` consecutive addresses from `a`, wrapping at 0xFFFF (30_encoding.md R55). -/
def Memory.readBytes (m : Memory) (a : Word) : Nat → List Byte
  | 0 => []
  | n + 1 => m.read a.toNat :: Memory.readBytes m (a + 1) n

/-- Store bytes at consecutive addresses from `a`, wrapping at 0xFFFF. -/
def Memory.writeBytes (m : Memory) (a : Word) : List Byte → Memory
  | [] => m
  | b :: bs => Memory.writeBytes (m.write a.toNat b) (a + 1) bs

/-- The memory that holds `f a` at every address `a` below `n`, and what an unlisted address reads as elsewhere: how a
`mem0 : Word -> Byte` (20_memory.md R33) is written down as a list. -/
def Memory.tabulate (f : Nat → Byte) : Nat → Memory
  | 0 => []
  | n + 1 => (Memory.tabulate f n).write n (f n)

/-- `MemRead(addr, 1)`, the bus primitive `read` (R31). -/
def State.memRead (s : State) (a : Word) : Byte := s.mem.read a.toNat

/-- `MemWrite(addr, 1, v)`, the bus primitive `write` (R32). -/
def State.memWrite (s : State) (a : Word) (v : Byte) : State := { s with mem := s.mem.write a.toNat v }

/-! Register writes (00_scope.md R6). -/

def State.setA (s : State) (v : Byte) : State := { s with A := v }
def State.setX (s : State) (v : Byte) : State := { s with X := v }
def State.setY (s : State) (v : Byte) : State := { s with Y := v }
def State.setP (s : State) (v : Byte) : State := { s with P := v }
def State.setPC (s : State) (v : Word) : State := { s with PC := v }

/-- A flag write `P.f <- c` is `P <- set(P, mask, c)` (10_state.md R26). -/
def State.setFlag (s : State) (m : Byte) (c : Bool) : State := s.setP (FlagSet.set s.P m c)

/-- `PC <- (PC + n) mod 65536` (30_encoding.md R56). -/
def State.advancePC (s : State) (n : Nat) : State := s.setPC (s.PC + BitVec.ofNat 16 n)

/-- Give the block a new register file; memory is no part of it (20_memory.md R33). -/
def State.setRegisters (s : State) (r : Registers) : State := { s with toRegisters := r }

/-- The register-file reset, from any prior state (10_state.md R29; 70_reset_and_hazards.md R115): memory unchanged, no vector. -/
def State.resetRegisters (s : State) : State := s.setRegisters Registers.construct

end Sys2Proof.Machine
end

