-- ==== Sys2Proof/Machine/Operands.lean ====
section
/-! DEFINITION. The address-mode resolver (40_addressing.md): the five derived addressing functions (R61 to R66) and each
variant's operand value (R68 to R75). All are pure (R60). -/

namespace Sys2Proof.Machine

/-- Absolute indexed: 16-bit addition, wrapping at 0xFFFF (R61). -/
def absIdx (address : Word) (idx : Byte) : Word := address + zext16 idx

/-- Zero-page indexed: 8-bit addition, so the high byte of the result is 0 (R62). -/
def zeroIdx (address idx : Byte) : Word := zext16 (address + idx)

/-- Where absolute indirect reads its high byte: at the next address, or at the start of the page when the low byte is 0xFF (R63). -/
def absIndirectHighAddress (address : Word) : Word :=
  if lo8 address = 0xFF then address &&& 0xFF00 else address + 1

/-- Absolute indirect, with the page wrap (R63). -/
def absIndirect (m : Memory) (address : Word) : Word :=
  let lo := m.read address.toNat
  let hi := m.read (absIndirectHighAddress address).toNat
  hiLo hi lo

/-- Pre-indexed indirect: pointer location and its successor wrap in the zero page (R65). -/
def indirectX (m : Memory) (address x : Byte) : Word :=
  let p := address + x
  let lo := m.read (zext16 p).toNat
  let hi := m.read (zext16 (p + 1)).toNat
  hiLo hi lo

/-- Post-indexed indirect: the pointer is fetched in the zero page, then Y is added with a carry into the high byte (R66). -/
def indirectY (m : Memory) (address y : Byte) : Word :=
  let lo0 := m.read (zext16 address).toNat
  let lo := lo0 + y
  let carry := addCarry lo0 y
  let hi0 := m.read (zext16 (address + 1)).toNat
  let hi := hi0 + b2b carry
  hiLo hi lo

/-! The operand value of each variant, from the state the operation begins in (R77). -/

/-- R68. -/
def operandImm (value : Byte) (_s : State) : Byte := value

/-- R69. -/
def operandZero (address : Byte) (s : State) : Byte := s.memRead (zext16 address)

/-- R70. -/
def operandZeroX (address : Byte) (s : State) : Byte := s.memRead (zeroIdx address s.X)

/-- R71. -/
def operandAbs (address : Word) (s : State) : Byte := s.memRead address

/-- R72. -/
def operandAbsX (address : Word) (s : State) : Byte := s.memRead (absIdx address s.X)

/-- R73. -/
def operandAbsY (address : Word) (s : State) : Byte := s.memRead (absIdx address s.Y)

/-- R74. -/
def operandIndX (address : Byte) (s : State) : Byte := s.memRead (indirectX s.mem address s.X)

/-- R75. -/
def operandIndY (address : Byte) (s : State) : Byte := s.memRead (indirectY s.mem address s.Y)

end Sys2Proof.Machine
end

