-- ==== Sys2Proof/Machine/Adc.lean ====
section
/-! DEFINITION. The add-with-carry family (41_adc.md): the common operation and one meaning per variant. A meaning is the
operation the caller invokes, so it leaves PC alone (R93; 92_eei_decisions.md D3): fetching and moving past the instruction's
bytes is the harness's, in Machine/Fetch.lean and Machine/Step.lean. -/

namespace Sys2Proof.Machine

/-- What a meaning answers. -/
abbrev Result := Host.Outcome State Fault Refusal

/-- `adc_common(value)`, steps 1 to 7 in order (R81). Binary whatever P.D holds (R84; entry 11). -/
def adcCommon (value : Byte) (s : State) : State :=
  let a := s.A
  let carryIn := Status.carry s.P
  let result := adcResult a value carryIn
  let s := s.setFlag maskC (adcCarry a value carryIn)
  let s := s.setFlag maskV (adcOverflow a value result)
  let s := s.setFlag maskN (adcNegative result)
  let s := s.setFlag maskZ (adcZeroFlag result)
  s.setA result

/-! The eight operations: resolve the operand, then `adc_common` (R80). -/

/-- ADC immediate (R85). -/
def adcImm (value : Byte) (s : State) : State := adcCommon (operandImm value s) s

/-- ADC zero-page (R86). -/
def adcZero (address : Byte) (s : State) : State := adcCommon (operandZero address s) s

/-- ADC zero-page,X (R87). -/
def adcZeroX (address : Byte) (s : State) : State := adcCommon (operandZeroX address s) s

/-- ADC absolute (R88). -/
def adcAbs (address : Word) (s : State) : State := adcCommon (operandAbs address s) s

/-- ADC absolute,X (R89). -/
def adcAbsX (address : Word) (s : State) : State := adcCommon (operandAbsX address s) s

/-- ADC absolute,Y (R90). -/
def adcAbsY (address : Word) (s : State) : State := adcCommon (operandAbsY address s) s

/-- ADC (indirect,X) (R91). -/
def adcIndX (address : Byte) (s : State) : State := adcCommon (operandIndX address s) s

/-- ADC (indirect),Y (R92). -/
def adcIndY (address : Byte) (s : State) : State := adcCommon (operandIndY address s) s

/-! The meanings exec dispatches to. No operation fails (60_exceptions.md R100), so each answers a next state. -/

/-- ADC immediate (R85). -/
def execAdcImm (value : Byte) (s : State) : Result := .next (adcImm value s)

/-- ADC zero-page (R86). -/
def execAdcZero (address : Byte) (s : State) : Result := .next (adcZero address s)

/-- ADC zero-page,X (R87). -/
def execAdcZeroX (address : Byte) (s : State) : Result := .next (adcZeroX address s)

/-- ADC absolute (R88). -/
def execAdcAbs (address : Word) (s : State) : Result := .next (adcAbs address s)

/-- ADC absolute,X (R89). -/
def execAdcAbsX (address : Word) (s : State) : Result := .next (adcAbsX address s)

/-- ADC absolute,Y (R90). -/
def execAdcAbsY (address : Word) (s : State) : Result := .next (adcAbsY address s)

/-- ADC (indirect,X) (R91). -/
def execAdcIndX (address : Byte) (s : State) : Result := .next (adcIndX address s)

/-- ADC (indirect),Y (R92). -/
def execAdcIndY (address : Byte) (s : State) : Result := .next (adcIndY address s)

end Sys2Proof.Machine
end

