-- ==== Sys2Proof/Machine/Dispatch.lean ====
section
/-! DEFINITION. One arm per instruction. -/

namespace Sys2Proof.Machine

def exec (i : Instr) (s : State) : Host.Outcome State Fault Refusal :=
  match i with
  | .adcImm value => Sys2Proof.Machine.execAdcImm value s
  | .adcZero address => Sys2Proof.Machine.execAdcZero address s
  | .adcZeroX address => Sys2Proof.Machine.execAdcZeroX address s
  | .adcAbs address => Sys2Proof.Machine.execAdcAbs address s
  | .adcAbsX address => Sys2Proof.Machine.execAdcAbsX address s
  | .adcAbsY address => Sys2Proof.Machine.execAdcAbsY address s
  | .adcIndX address => Sys2Proof.Machine.execAdcIndX address s
  | .adcIndY address => Sys2Proof.Machine.execAdcIndY address s

end Sys2Proof.Machine
end

