-- ==== Sys2Proof/Machine/Fetch.lean ====
section
/-! DEFINITION. The harness's fetch (30_encoding.md R53 to R55, R59) and placing an instruction where it is fetched. -/

namespace Sys2Proof.Machine

/-- How many bytes the harness reads for an opcode byte: by the opcode alone (R59); one for a refused byte (R54). -/
def fetchLength (op : Byte) : Nat :=
  match modeOfOpcode op with
  | some m => m.length
  | none => 1

/-- The opcode byte at PC, then the operand bytes after it, wrapping at 0xFFFF (R53, R55), from memory as it is now (20_memory.md R43). -/
def fetchBytes (s : State) : List Byte := s.mem.readBytes s.PC (fetchLength (s.memRead s.PC))

/-- Fetch and decode the instruction at PC. -/
def fetch (s : State) : Except DecodeReject Instr :=
  match decode (fetchBytes s) with
  | .ok (i, _) => .ok i
  | .error e => .error e

/-- Store bytes where the next fetch reads them. -/
def placeAtPC (s : State) (bytes : List Byte) : State := { s with mem := s.mem.writeBytes s.PC bytes }

end Sys2Proof.Machine
end

