-- ==== Sys2Proof/Machine/Step.lean ====
section
/-! DEFINITION. One step of the reference harness (30_encoding.md R57), and how an instruction is placed for it. -/

namespace Sys2Proof.Machine

/-- Fetch, decode, advance PC, execute (R53 to R57). A byte outside the table is `Refused(PC, op)` (R54). -/
def step (s : State) : Host.Outcome State Fault Refusal :=
  match fetch s with
  | .error _ => .refused (.refusedOpcode s.PC (s.memRead s.PC))
  | .ok i => exec i (s.advancePC i.length)

/-- `s` with the instruction of a table word stored at PC, where `step` fetches its next instruction (entry 8). -/
def State.withFetchWord (s : State) (nbits w : Nat) : State := placeAtPC s (tableBytes nbits w)

end Sys2Proof.Machine
end

