-- ==== Sys2Proof/Machine/Harness.lean ====
section
/-! DEFINITION. Harness runs (30_encoding.md R58; 70_reset_and_hazards.md R124). -/

namespace Sys2Proof.Machine

/-- How a harness run ends, with the state it ends in. -/
inductive RunEnd where
  /-- A step was refused; registers and memory are those before that step (R54). -/
  | refused (final : State) (reason : Refusal)
  /-- Fuel ran out: unfinished, not terminated (R58). -/
  | unfinished (final : State)
  deriving DecidableEq, Repr

/-- Repeat `step` until it refuses or the fuel runs out (R58). `Fault` has no value, so that arm is empty (60_exceptions.md R100). -/
def harnessRun : Nat → State → RunEnd
  | 0, s => .unfinished s
  | n + 1, s =>
    match step s with
    | .next t => harnessRun n t
    | .fault f => nomatch f
    | .refused r => .refused s r

/-- The state a run ends in. -/
def RunEnd.final : RunEnd → State
  | .refused s _ => s
  | .unfinished s => s

/-- The run ended normally at the designated end address: a byte refused exactly there (R58; 70_reset_and_hazards.md R124). -/
def RunEnd.normalAt (address : Word) : RunEnd → Bool
  | .refused _ (.refusedOpcode pc _) => pc == address
  | _ => false

end Sys2Proof.Machine
end

