-- ==== Sys2Proof/Machine/Bus.lean ====
section
/-! DEFINITION. The bus account: the pseudocode of the resolver, the variants and the harness step once more, with the addresses
each reads, in order (20_memory.md R38; 40_addressing.md R76). A value can be had only through `busRead`, so the list holds
every read made. The list is no state of the machine (10_state.md R11; entry 6): `step` does not hold it. -/

namespace Sys2Proof.Machine

/-- A value together with the addresses read to find it, in order. -/
structure Traced (α : Type) where
  value : α
  reads : List Word
  deriving Repr

/-- A value found without a read. -/
def Traced.ret {α : Type} (v : α) : Traced α := { value := v, reads := [] }

/-- First one, then the other with its value. -/
def Traced.andThen {α β : Type} (t : Traced α) (f : α → Traced β) : Traced β :=
  let u := f t.value
  { value := u.value, reads := t.reads ++ u.reads }

/-- One single-byte read (20_memory.md R31, R35). -/
def busRead (m : Memory) (a : Word) : Traced Byte := { value := m.read a.toNat, reads := [a] }

/-- R63, low byte then high byte. -/
def absIndirectBus (m : Memory) (address : Word) : Traced Word :=
  (busRead m address).andThen fun lo =>
  (busRead m (absIndirectHighAddress address)).andThen fun hi =>
  .ret (hiLo hi lo)

/-- R65. -/
def indirectXBus (m : Memory) (address x : Byte) : Traced Word :=
  let p := address + x
  (busRead m (zext16 p)).andThen fun lo =>
  (busRead m (zext16 (p + 1))).andThen fun hi =>
  .ret (hiLo hi lo)

/-- R66. -/
def indirectYBus (m : Memory) (address y : Byte) : Traced Word :=
  (busRead m (zext16 address)).andThen fun lo0 =>
  let carry := addCarry lo0 y
  (busRead m (zext16 (address + 1))).andThen fun hi0 =>
  .ret (hiLo (hi0 + b2b carry) (lo0 + y))

/-- The operand of a variant with the reads that resolve it (R68 to R76). -/
def operandBus (i : Instr) (s : State) : Traced Byte :=
  match i with
  | .adcImm value => .ret value
  | .adcZero address => busRead s.mem (zext16 address)
  | .adcZeroX address => busRead s.mem (zeroIdx address s.X)
  | .adcAbs address => busRead s.mem address
  | .adcAbsX address => busRead s.mem (absIdx address s.X)
  | .adcAbsY address => busRead s.mem (absIdx address s.Y)
  | .adcIndX address => (indirectXBus s.mem address s.X).andThen (busRead s.mem)
  | .adcIndY address => (indirectYBus s.mem address s.Y).andThen (busRead s.mem)

/-- A variant with its reads: resolve, then `adc_common`, which reads nothing (41_adc.md R80, R81). -/
def execBus (i : Instr) (s : State) : Traced Result :=
  (operandBus i s).andThen fun value => .ret (.next (adcCommon value s))

/-- The operand bytes: `b1`, and for abs16 `b2` after it (30_encoding.md R55). -/
def operandBytesBus (s : State) : Format → Traced (List Byte)
  | .imm8 | .zp8 => (busRead s.mem (s.PC + 1)).andThen fun b1 => .ret [b1]
  | .abs16 =>
    (busRead s.mem (s.PC + 1)).andThen fun b1 =>
    (busRead s.mem (s.PC + 2)).andThen fun b2 =>
    .ret [b1, b2]

/-- The pseudocode of R57: opcode, operand bytes, then the reads of the operation (92_eei_decisions.md D14). -/
def stepBus (s : State) : Traced Result :=
  (busRead s.mem s.PC).andThen fun op =>
  match modeOfOpcode op with
  | none => .ret (.refused (.refusedOpcode s.PC op))
  | some mode =>
    (operandBytesBus s mode.format).andThen fun operand =>
    match assemble mode operand with
    | none => .ret (.refused (.refusedOpcode s.PC op))
    | some i => execBus i (s.setPC (s.PC + BitVec.ofNat 16 mode.length))

/-- All bus reads of a harness run, in order, the read of the refused byte included (95_test_vectors.md section 3). -/
def harnessReads : Nat → State → List Word
  | 0, _ => []
  | n + 1, s =>
    (stepBus s).reads ++
      match step s with
      | .next t => harnessReads n t
      | .fault f => nomatch f
      | .refused _ => []

end Sys2Proof.Machine
end

