-- ==== Sys2Proof/Machine/Interface.lean ====
section
/-! DEFINITION. The operation interface (30_encoding.md R45) and the host's interactions (60_exceptions.md R107). The opcode table
names only the eight variants; the block exposes the operations below as well, and the host may act between any two. -/

namespace Sys2Proof.Machine

/-- The operations the block exposes: the rows of R45. -/
inductive Operation where
  | adcCommon (value : Byte)
  | adcImm (value : Byte)
  | adcZero (address : Byte)
  | adcZeroX (address : Byte)
  | adcAbs (address : Word)
  | adcAbsX (address : Word)
  | adcAbsY (address : Word)
  | adcIndX (address : Byte)
  | adcIndY (address : Byte)
  | absIdx (address : Word) (idx : Byte)
  | zeroIdx (address idx : Byte)
  | absIndirect (address : Word)
  | indirectX (address x : Byte)
  | indirectY (address y : Byte)
  | read (address : Word)
  | write (address : Word) (value : Byte)
  | flagsEmpty
  | flagsAnd (p q : Byte)
  | flagsOr (p q : Byte)
  | flagsXor (p q : Byte)
  | flagsNot (p : Byte)
  | flagsTest (p m : Byte)
  | flagsSet (p m : Byte) (c : Bool)
  | flagsEqual (p q : Byte)
  | construct
  | reset
  deriving DecidableEq, Repr

/-- What an operation or a host interaction returns. -/
inductive Answer where
  | unit
  | byte (v : Byte)
  | word (v : Word)
  | bool (v : Bool)
  deriving DecidableEq, Repr

/-- Every operation is a total function of its arguments, the registers and the memory (00_scope.md R7; R45). -/
def invoke (op : Operation) (s : State) : Answer × State :=
  match op with
  | .adcCommon value => (.unit, Machine.adcCommon value s)
  | .adcImm value => (.unit, Machine.adcImm value s)
  | .adcZero address => (.unit, Machine.adcZero address s)
  | .adcZeroX address => (.unit, Machine.adcZeroX address s)
  | .adcAbs address => (.unit, Machine.adcAbs address s)
  | .adcAbsX address => (.unit, Machine.adcAbsX address s)
  | .adcAbsY address => (.unit, Machine.adcAbsY address s)
  | .adcIndX address => (.unit, Machine.adcIndX address s)
  | .adcIndY address => (.unit, Machine.adcIndY address s)
  | .absIdx address idx => (.word (Machine.absIdx address idx), s)
  | .zeroIdx address idx => (.word (Machine.zeroIdx address idx), s)
  | .absIndirect address => (.word (Machine.absIndirect s.mem address), s)
  | .indirectX address x => (.word (Machine.indirectX s.mem address x), s)
  | .indirectY address y => (.word (Machine.indirectY s.mem address y), s)
  | .read address => (.byte (s.memRead address), s)
  | .write address value => (.unit, s.memWrite address value)
  | .flagsEmpty => (.byte FlagSet.empty, s)
  | .flagsAnd p q => (.byte (FlagSet.and p q), s)
  | .flagsOr p q => (.byte (FlagSet.or p q), s)
  | .flagsXor p q => (.byte (FlagSet.xor p q), s)
  | .flagsNot p => (.byte (FlagSet.not p), s)
  | .flagsTest p m => (.bool (FlagSet.test p m), s)
  | .flagsSet p m c => (.byte (FlagSet.set p m c), s)
  | .flagsEqual p q => (.bool (FlagSet.equal p q), s)
  | .construct => (.unit, s.setRegisters Registers.construct)
  | .reset => (.unit, s.resetRegisters)

/-- The registers of 8 bits. -/
inductive Reg8 where
  | A | X | Y | P
  deriving DecidableEq, Repr

/-- Read a register of 8 bits. -/
def State.getReg8 (s : State) : Reg8 → Byte
  | .A => s.A
  | .X => s.X
  | .Y => s.Y
  | .P => s.P

/-- Write a register of 8 bits; P takes all 8 bits (60_exceptions.md R107). -/
def State.setReg8 (s : State) (r : Reg8) (v : Byte) : State :=
  match r with
  | .A => s.setA v
  | .X => s.setX v
  | .Y => s.setY v
  | .P => s.setP v

/-- What the host may do between two operations: the rows of 60_exceptions.md R107. -/
inductive HostAction where
  | readReg (r : Reg8)
  | readPC
  | writeReg (r : Reg8) (v : Byte)
  | writePC (v : Word)
  | readMem (address : Word)
  | writeMem (address : Word) (value : Byte)
  | reset
  | invoke (op : Operation)
  deriving DecidableEq, Repr

/-- One host interaction (60_exceptions.md R107). -/
def hostAct (h : HostAction) (s : State) : Answer × State :=
  match h with
  | .readReg r => (.byte (s.getReg8 r), s)
  | .readPC => (.word s.PC, s)
  | .writeReg r v => (.unit, s.setReg8 r v)
  | .writePC v => (.unit, s.setPC v)
  | .readMem address => (.byte (s.memRead address), s)
  | .writeMem address value => (.unit, s.memWrite address value)
  | .reset => (.unit, s.resetRegisters)
  | .invoke op => Machine.invoke op s

/-- A run at operation level: a finite sequence of interactions, its answers and its last state (70_reset_and_hazards.md R123). -/
def hostRun : List HostAction → State → List Answer × State
  | [], s => ([], s)
  | h :: hs, s =>
    let r := hostAct h s
    let rest := hostRun hs r.2
    (r.1 :: rest.1, rest.2)

/-- Put back the five registers of a saved state. -/
def restoreRegisters (saved : State) : List HostAction :=
  [.writeReg .A saved.A, .writeReg .X saved.X, .writeReg .Y saved.Y, .writeReg .P saved.P, .writePC saved.PC]

/-- Put back the byte at each address below `n`. -/
def restoreMemory (saved : State) (n : Nat) : List HostAction :=
  (List.range n).map fun a => .writeMem (BitVec.ofNat 16 a) (saved.mem.read a)

/-- The interactions by which a host puts back a saved state: A, X, Y, P, PC and the memory (60_exceptions.md R109). -/
def restoreActions (saved : State) : List HostAction :=
  restoreRegisters saved ++ restoreMemory saved Config.addressCount

end Sys2Proof.Machine
end

