-- ==== Sys2Proof/Safety.lean ====
section
/-! DEFINITION. The invariant of the model and what a safe run is, in the terms claims use. -/

namespace Sys2Proof

open Machine

/-- The memory list keeps its canonical form. The spec puts no condition on the registers: every combination of values is valid
(10_state.md R10), so the invariant says nothing of them. -/
def CanonicalMemory (s : State) : Prop := s.mem.wf = true

/-- The two states agree on everything no instruction writes: X, Y, the status bits I (2), D (3) and B (5:4), and memory
(41_adc.md R93). `0x3C` is those four bits of P. -/
def SameInert (s t : State) : Prop :=
  t.X = s.X ∧ t.Y = s.Y ∧ t.P &&& 0x3C = s.P &&& 0x3C ∧ t.mem = s.mem

/-- With this fuel the run ends normally at the designated end address (70_reset_and_hazards.md R124). -/
def EndsNormally (fuel : Nat) (s : State) (address : Word) : Prop := (harnessRun fuel s).normalAt address = true

end Sys2Proof
end

