-- ==== Sys2Proof/Certificates/Slice0/Obligations.lean ====
section
/-! DEFINITION. The statements for the provers, from the spec's numbered rules. Numbers and bits are written out here, apart from the
definitions of the machine, so that a statement can be held beside the rule. Bit numbers of P: C 0, Z 1, I 2, D 3, B 5:4, V 6, N 7
(10_state.md R14). -/

open Sys2Proof Sys2Proof.Machine

/-! ### What several statements share -/

/-- The outcome of 41_adc.md R81 with operand `value`: `t` is `s` after the seven steps, and nothing else differs. -/
def Sys2Proof.Claims.AddsWithCarry (s : Machine.State) (value : Byte) (t : Machine.State) : Prop :=
  let sum := s.A.toNat + value.toNat + (s.P.getLsbD 0).toNat
  t.A.toNat = sum % 256 ∧
  t.P.getLsbD 0 = decide (sum > 255) ∧
  t.P.getLsbD 6 = decide ((s.A ^^^ value) &&& 0x80 = 0x00 ∧ (s.A ^^^ t.A) &&& 0x80 = 0x80) ∧
  t.P.getLsbD 7 = decide (t.A &&& 0x80 = 0x80) ∧
  t.P.getLsbD 1 = decide (t.A = 0x00) ∧
  t.P &&& 0x3C = s.P &&& 0x3C ∧
  t.X = s.X ∧ t.Y = s.Y ∧ t.PC = s.PC ∧ t.mem = s.mem

/-- The address with this number. -/
def Sys2Proof.Claims.addr (n : Nat) : Word := BitVec.ofNat 16 n

/-- The eight opcode bytes (30_encoding.md R49). -/
def Sys2Proof.Claims.adcOpcodes : List Byte := [0x61, 0x65, 0x69, 0x6D, 0x71, 0x75, 0x79, 0x7D]

/-- The byte last written to `a` by the host or by the write primitive, or `init` if there was no write (20_memory.md R40). -/
def Sys2Proof.Claims.lastWrite (a : Word) (init : Byte) : List HostAction → Byte
  | [] => init
  | .writeMem b v :: hs => lastWrite a (if b = a then v else init) hs
  | .invoke (.write b v) :: hs => lastWrite a (if b = a then v else init) hs
  | _ :: hs => lastWrite a init hs

/-- The interactions that write no bit of P: all but a write of P, a reset, a construction and an add (10_state.md R10). -/
def Sys2Proof.Claims.leavesStatus : HostAction → Bool
  | .writeReg .P _ | .reset | .invoke .construct | .invoke .reset | .invoke (.adcCommon _) | .invoke (.adcImm _)
  | .invoke (.adcZero _) | .invoke (.adcZeroX _) | .invoke (.adcAbs _) | .invoke (.adcAbsX _) | .invoke (.adcAbsY _)
  | .invoke (.adcIndX _) | .invoke (.adcIndY _) => false
  | _ => true

/-- The number a list of bytes stands for, lowest byte first (20_memory.md R34). -/
def Sys2Proof.Claims.leValue : List Byte → Nat
  | [] => 0
  | b :: bs => b.toNat + 256 * leValue bs

/-- Add two numbers byte by byte, lowest first: the host writes a byte of the first to A and invokes `adc_imm` with the byte of the
second; nothing comes between two adds but that write of A (70_reset_and_hazards.md R120; 60_exceptions.md R107). -/
def Sys2Proof.Claims.addChain : List (Byte × Byte) → Machine.State → List Byte × Machine.State
  | [], s => ([], s)
  | (a, b) :: rest, s =>
    let t := (hostAct (.invoke (.adcImm b)) (hostAct (.writeReg .A a) s).2).2
    (t.A :: (addChain rest t).1, (addChain rest t).2)

open Sys2Proof.Claims

/-! ### Register file and reset (10_state.md, 70_reset_and_hazards.md) -/

/-- A newly constructed register file (10_state.md section 4), and so the file of the machine after reset; and what the exposed
operation construct does from any state: it answers with nothing but the constructed register file in place, memory as it was.
That construct replaces the block's register file is the model's reading of 30_encoding.md section 1, "whole register file"
(DEDUCED, entry 14). -/
def Obligations.ConstructedRegisterFileIsAllZero : Prop :=
  Registers.construct.A = 0x00 ∧ Registers.construct.X = 0x00 ∧ Registers.construct.Y = 0x00 ∧
  Registers.construct.P = 0x00 ∧ Registers.construct.PC = 0x0000 ∧ State.reset.toRegisters = Registers.construct ∧
  ∀ s : Machine.State, invoke .construct s = (.unit, { Registers.construct with mem := s.mem })

/-- 10_state.md R29: reset zeroes every register from any prior state, whatever memory holds, and leaves memory alone. -/
def Obligations.ResetZeroesRegistersAndKeepsMemory : Prop :=
  ∀ s : Machine.State, ∃ t, hostAct .reset s = (.unit, t) ∧ invoke .reset s = (.unit, t) ∧
    t.A = 0x00 ∧ t.X = 0x00 ∧ t.Y = 0x00 ∧ t.P = 0x00 ∧ t.PC = 0x0000 ∧ t.toRegisters = Registers.construct ∧
    t.mem = s.mem

/-- 70_reset_and_hazards.md R117: after any run of interactions a reset may follow, any number of times, and each leaves the
constructed register file and the memory of that moment. -/
def Obligations.ResetMayFollowAnyInteractions : Prop :=
  ∀ (hs : List HostAction) (n : Nat) (s : Machine.State),
    (hostRun (hs ++ List.replicate (n + 1) .reset) s).2 =
      { Registers.construct with mem := (hostRun hs s).2.mem }

/-- The canonical form (entry 1: the model's own) holds at reset. -/
def Obligations.ResetStateMeetsTheInvariant : Prop := CanonicalMemory State.reset

/-- A step keeps the invariant (entry 1: the canonical form is the model's own) and everything no instruction writes. -/
def Obligations.StepKeepsCanonicalMemoryAndInertState : Prop :=
  ∀ s t : Machine.State, CanonicalMemory s → step s = .next t → CanonicalMemory t ∧ SameInert s t

/-- Whatever the host does between operations, writes of memory included, memory keeps its canonical form (entry 1). -/
def Obligations.HostRunKeepsCanonicalMemory : Prop :=
  ∀ (hs : List HostAction) (s : Machine.State), CanonicalMemory s → CanonicalMemory (hostRun hs s).2

/-- Over a harness run of any length X, Y, the bits I, D and B, and all of memory stay as they were: no program of this block
changes its own code. Rests on the spec's inferences marked "[derived: from rule R81 and rules R85 to R92]" and of
70_reset_and_hazards.md "a program cannot modify its own code". -/
def Obligations.HarnessRunKeepsInertState : Prop :=
  ∀ (n : Nat) (s : Machine.State), SameInert s (harnessRun n s).final

/-! ### The status register (10_state.md R14 to R27) -/

/-- The named fields are the bits of 10_state.md section 2, and every bit of P belongs to exactly one mask.
The masks are the spec's inference ("masks derived from R4"). -/
def Obligations.StatusFieldsPartitionTheByte : Prop :=
  (∀ p : Byte,
    Status.carry p = p.getLsbD 0 ∧ Status.zero p = p.getLsbD 1 ∧ Status.interruptDisable p = p.getLsbD 2 ∧
    Status.decimal p = p.getLsbD 3 ∧ (Status.bField p).toNat = p.toNat / 16 % 4 ∧
    Status.overflow p = p.getLsbD 6 ∧ Status.negative p = p.getLsbD 7) ∧
  ∀ i : Fin 8, ([maskC, maskZ, maskI, maskD, maskB, maskV, maskN].filter fun m => m.getLsbD i).length = 1

/-- Any byte the host writes to P, B bits included, reads back through any interactions that do not write P.
The round trip is 10_state.md section 2's inference from "must round-trip". -/
def Obligations.StatusByteRoundTrips : Prop :=
  ∀ (v : Byte) (s : Machine.State) (hs : List HostAction), (∀ h ∈ hs, leavesStatus h = true) →
    hostAct (.readReg .P) (hostRun (.writeReg .P v :: hs) s).2 = (.byte v, (hostRun (.writeReg .P v :: hs) s).2)

/-- 10_state.md R23: the empty flag set has every bit clear, and it is P at construction and after reset. -/
def Obligations.EmptyFlagSetIsTheStatusAfterReset : Prop :=
  (∀ i : Fin 8, FlagSet.empty.getLsbD i = false) ∧ FlagSet.empty = 0x00 ∧
  (∀ s : Machine.State, invoke .flagsEmpty s = (.byte 0x00, s)) ∧
  Registers.construct.P = FlagSet.empty ∧ ∀ s : Machine.State, (invoke .reset s).2.P = FlagSet.empty

/-- The bitwise operations, bit by bit, and equality of status values: of all eight bits (10_state.md section 3, whose reach of NOT
and of equality over the B bits the spec marks as derived). -/
def Obligations.FlagSetOperationsAreBitwise : Prop :=
  ∀ (p q : Byte) (s : Machine.State), ∃ a o x n : Byte, ∃ e : Bool,
    invoke (.flagsAnd p q) s = (.byte a, s) ∧ invoke (.flagsOr p q) s = (.byte o, s) ∧
    invoke (.flagsXor p q) s = (.byte x, s) ∧ invoke (.flagsNot p) s = (.byte n, s) ∧
    invoke (.flagsEqual p q) s = (.bool e, s) ∧
    (∀ i : Fin 8, a.getLsbD i = (p.getLsbD i && q.getLsbD i) ∧ o.getLsbD i = (p.getLsbD i || q.getLsbD i) ∧
      x.getLsbD i = (p.getLsbD i != q.getLsbD i) ∧ n.getLsbD i = !p.getLsbD i) ∧
    (e = true ↔ ∀ i : Fin 8, p.getLsbD i = q.getLsbD i)

/-- 10_state.md R25: the test is true iff every flag of `m` is set; for B both bits; for no flag always.
The "all" reading is the spec's decision D6. -/
def Obligations.FlagTestHoldsIffEveryFlagIsSet : Prop :=
  ∀ (p m : Byte) (s : Machine.State),
    (∃ b, invoke (.flagsTest p m) s = (.bool b, s) ∧ b = ((p &&& m) == m) ∧
      (b = true ↔ ∀ i : Fin 8, m.getLsbD i = true → p.getLsbD i = true)) ∧
    FlagSet.test p 0x00 = true ∧
    (FlagSet.test p 0x30 = true ↔ p.getLsbD 4 = true ∧ p.getLsbD 5 = true) ∧
    ∀ i : Fin 8, FlagSet.test p (1 <<< i.val) = p.getLsbD i

/-- 10_state.md R26: the flags of `m` take the condition, every other bit stays; a flag write is this with the flag's mask. -/
def Obligations.FlagSetWritesExactlyTheMaskedFlags : Prop :=
  ∀ (p m : Byte) (c : Bool) (s : Machine.State), ∃ r, invoke (.flagsSet p m c) s = (.byte r, s) ∧
    r = (if c then p ||| m else p &&& (0xFF ^^^ m)) ∧
    (∀ i : Fin 8, r.getLsbD i = if m.getLsbD i then c else p.getLsbD i) ∧
    s.setFlag m c = s.setP (if c then s.P ||| m else s.P &&& (0xFF ^^^ m))

/-! ### Memory (20_memory.md) -/

/-- 20_memory.md R32: a write stores the byte at its address and changes no other address and no register; and no other operation
of the block writes memory, neither an instruction nor any other operation exposed (read, the addressing functions, the flag-set
operations; construct and reset, of which R33 says that they "do not change `mem`"). The addressing functions change nothing at all.
`CanonicalMemory` is the canonical form of the memory list, which every run keeps. -/
def Obligations.WriteStoresOneByteAndNothingElse : Prop :=
  (∀ (s : Machine.State) (a : Word) (v : Byte), CanonicalMemory s → ∃ t, invoke (.write a v) s = (.unit, t) ∧
    t.memRead a = v ∧ (∀ b, b ≠ a → t.memRead b = s.memRead b) ∧ t.toRegisters = s.toRegisters) ∧
  (∀ (i : Instr) (s t : Machine.State), exec i s = .next t → t.mem = s.mem) ∧
  (∀ (op : Operation) (s : Machine.State), (∀ a v, op ≠ .write a v) → (invoke op s).2.mem = s.mem) ∧
  ∀ s : Machine.State,
    (∀ (a : Word) (i : Byte), (invoke (.absIdx a i) s).2 = s) ∧ (∀ a i : Byte, (invoke (.zeroIdx a i) s).2 = s) ∧
    (∀ a : Word, (invoke (.absIndirect a) s).2 = s) ∧ (∀ a x : Byte, (invoke (.indirectX a x) s).2 = s) ∧
    ∀ a y : Byte, (invoke (.indirectY a y) s).2 = s

/-- 20_memory.md section 1: the memory is a total function of the address and its contents are the open parameter `mem0`.
Every such function is the contents of some canonical memory list, so the model shuts no `mem0` out (entry 1). -/
def Obligations.EveryMemoryContentsIsRepresented : Prop :=
  ∀ (mem0 : Word → Byte) (r : Registers), ∃ s : Machine.State, CanonicalMemory s ∧ s.toRegisters = r ∧ ∀ a, s.memRead a = mem0 a

/-- Two canonical memory lists that read the same at every address are the same list (entry 1). -/
def Obligations.CanonicalMemoriesReadingAlikeAreEqual : Prop :=
  ∀ s t : Machine.State, CanonicalMemory s → CanonicalMemory t → (∀ a, s.memRead a = t.memRead a) → s.mem = t.mem

/-- Over any run of interactions a read returns the byte last written to its address, or the byte there at the start
(20_memory.md section 4: sequential consistency with a single agent). -/
def Obligations.ReadReturnsTheLastWrite : Prop :=
  ∀ (hs : List HostAction) (s : Machine.State) (a : Word), CanonicalMemory s →
    hostAct (.readMem a) (hostRun hs s).2 = (.byte (lastWrite a (s.memRead a) hs), (hostRun hs s).2)

/-! ### The address-mode resolver (40_addressing.md R60 to R79) -/

/-- 40_addressing.md R61: 16-bit addition that wraps at 0xFFFF. -/
def Obligations.AbsoluteIndexedAddsModulo65536 : Prop :=
  ∀ (address : Word) (idx : Byte) (s : Machine.State), ∃ w, invoke (.absIdx address idx) s = (.word w, s) ∧
    w.toNat = (address.toNat + idx.toNat) % 65536

/-- 40_addressing.md R62: the sum wraps within the zero page, and the high byte is always 0. -/
def Obligations.ZeroPageIndexedWrapsInTheZeroPage : Prop :=
  ∀ (address idx : Byte) (s : Machine.State), ∃ w, invoke (.zeroIdx address idx) s = (.word w, s) ∧
    w.toNat = (address.toNat + idx.toNat) % 256 ∧ hi8 w = 0x00

/-- 40_addressing.md R63: the two reads and the page wrap, low byte first. -/
def Obligations.AbsoluteIndirectWrapsInItsPage : Prop :=
  ∀ (address : Word) (s : Machine.State),
    let hiAddr := if address.toNat % 256 = 255 then address &&& 0xFF00 else addr (address.toNat + 1)
    ∃ w, invoke (.absIndirect address) s = (.word w, s) ∧
      w.toNat = (s.memRead hiAddr).toNat * 256 + (s.memRead address).toNat ∧
      absIndirectBus s.mem address = { value := w, reads := [address, hiAddr] }

/-- The closed form the spec derives: the low byte of the pointer address is incremented within its page, so both reads lie in the
page of `address` (40_addressing.md section 1). -/
def Obligations.AbsoluteIndirectReadsOnePage : Prop :=
  ∀ (address : Word) (m : Memory),
    absIndirect m address = hiLo (m.read (hiLo (hi8 address) (lo8 address + 1)).toNat) (m.read address.toNat) ∧
    ∀ r ∈ (absIndirectBus m address).reads, hi8 r = hi8 address

/-- 40_addressing.md R65: pre-indexed, pointer location and successor wrap in the zero page, low byte read first. -/
def Obligations.IndirectXFetchesItsPointerInTheZeroPage : Prop :=
  ∀ (address x : Byte) (s : Machine.State),
    let p := (address.toNat + x.toNat) % 256
    ∃ w, invoke (.indirectX address x) s = (.word w, s) ∧
      w.toNat = (s.memRead (addr ((p + 1) % 256))).toNat * 256 + (s.memRead (addr p)).toNat ∧
      indirectXBus s.mem address x = { value := w, reads := [addr p, addr ((p + 1) % 256)] }

/-- 40_addressing.md R66: post-indexed, with the carry of the low byte's sum into the high byte. -/
def Obligations.IndirectYAddsTheIndexToThePointer : Prop :=
  ∀ (address y : Byte) (s : Machine.State),
    let lo0 := (s.memRead (addr address.toNat)).toNat
    let hi0 := (s.memRead (addr ((address.toNat + 1) % 256))).toNat
    let sum := lo0 + y.toNat
    ∃ w, invoke (.indirectY address y) s = (.word w, s) ∧
      w.toNat = (hi0 + if sum > 255 then 1 else 0) % 256 * 256 + sum % 256 ∧
      indirectYBus s.mem address y = { value := w, reads := [addr address.toNat, addr ((address.toNat + 1) % 256)] }

/-- The closed form the spec derives: the 16-bit pointer plus Y, modulo 65536 (40_addressing.md section 1). -/
def Obligations.IndirectYIsThePointerPlusTheIndex : Prop :=
  ∀ (m : Memory) (address y : Byte),
    let ptr := hiLo (m.read (zext16 (address + 1)).toNat) (m.read (zext16 address).toNat)
    (indirectY m address y).toNat = (ptr.toNat + y.toNat) % 65536

/-- Each addressing function answers the same word, and changes nothing, in any two states whose memories agree
(40_addressing.md section 1: pure functions of their inputs and the current memory contents). -/
def Obligations.AddressingFunctionsDependOnMemoryAlone : Prop :=
  ∀ s t : Machine.State, s.mem = t.mem → ∀ op : Operation,
    ((∃ a i, op = .absIdx a i) ∨ (∃ a i, op = .zeroIdx a i) ∨ (∃ a, op = .absIndirect a) ∨ (∃ a x, op = .indirectX a x) ∨
      ∃ a y, op = .indirectY a y) →
    ∃ w, invoke op s = (.word w, s) ∧ invoke op t = (.word w, t)

/-- Zero-page confinement, which the spec derives: zero-page operands and every pointer byte are read below 0x0100
(40_addressing.md section 2). -/
def Obligations.ZeroPageReadsStayBelow256 : Prop :=
  ∀ (a : Byte) (s : Machine.State),
    (∀ r ∈ (operandBus (.adcZero a) s).reads, r.toNat < 256) ∧ (∀ r ∈ (operandBus (.adcZeroX a) s).reads, r.toNat < 256) ∧
    (∀ r ∈ (operandBus (.adcIndX a) s).reads.take 2, r.toNat < 256) ∧
    ∀ r ∈ (operandBus (.adcIndY a) s).reads.take 2, r.toNat < 256

/-! ### Add with carry (41_adc.md) -/

/-- 41_adc.md R81: the common operation, steps 1 to 7, for every operand, and what it leaves unchanged. -/
def Obligations.AdcCommonAddsWithCarry : Prop :=
  ∀ (value : Byte) (s : Machine.State), ∃ t, invoke (.adcCommon value) s = (.unit, t) ∧ AddsWithCarry s value t

/-- The overflow law the spec derives: V is set iff the exact signed sum leaves -128..127, and iff both operands differ in sign from
the result (41_adc.md section 2). -/
def Obligations.OverflowIsTheSignedRangeTest : Prop :=
  ∀ (value : Byte) (s : Machine.State),
    let signed := s.A.toInt + value.toInt + ((s.P.getLsbD 0).toNat : Int)
    let t := adcCommon value s
    (t.P.getLsbD 6 = true ↔ ¬(-128 ≤ signed ∧ signed ≤ 127)) ∧
    t.P.getLsbD 6 = decide ((s.A ^^^ t.A) &&& (value ^^^ t.A) &&& 0x80 = 0x80)

/-- The carry law the spec derives: new A and carry out are together the exact sum (41_adc.md section 2). -/
def Obligations.ResultAndCarryAreTheExactSum : Prop :=
  ∀ (value : Byte) (s : Machine.State),
    let t := adcCommon value s
    t.A.toNat + 256 * (t.P.getLsbD 0).toNat = s.A.toNat + value.toNat + (s.P.getLsbD 0).toNat

/-- 41_adc.md R84: with P.D set and with P.D clear the result and the flags C, Z, V and N are the same, the binary ones of R81.
The spec decides this in D4. -/
def Obligations.DecimalFlagIsNotHonoured : Prop :=
  ∀ (value : Byte) (s : Machine.State),
    let d := s.setP (s.P ||| 0x08)
    let b := s.setP (s.P &&& 0xF7)
    AddsWithCarry d value (adcCommon value d) ∧ AddsWithCarry b value (adcCommon value b) ∧
    (adcCommon value d).A = (adcCommon value b).A ∧
    (adcCommon value d).P &&& 0xC3 = (adcCommon value b).P &&& 0xC3

/-- Determinism, which the spec derives: new A, C, Z, V and N depend only on old A, old C and the operand (41_adc.md section 4). -/
def Obligations.AdcDependsOnAccumulatorCarryAndOperandAlone : Prop :=
  ∀ (value : Byte) (s t : Machine.State), s.A = t.A → s.P.getLsbD 0 = t.P.getLsbD 0 →
    (adcCommon value s).A = (adcCommon value t).A ∧
    (adcCommon value s).P &&& 0xC3 = (adcCommon value t).P &&& 0xC3

/-- 41_adc.md R85, 40_addressing.md R68: ADC immediate. It completes for every operand and state. The encoding
clause rests on bytes the spec has from general knowledge (PRESUMED, entry 2; D2, I1); the effect does not. -/
def Obligations.AdcImmediateAddsItsOperand : Prop :=
  ∀ (value : Byte) (s : Machine.State),
    encode (.adcImm value) = [0x69, value] ∧ (Instr.adcImm value).length = 2 ∧
    (operandBus (.adcImm value) s).reads = [] ∧
    ∃ t, exec (.adcImm value) s = .next t ∧ invoke (.adcImm value) s = (.unit, t) ∧ AddsWithCarry s value t

/-- 41_adc.md R86, 40_addressing.md R69: ADC zero-page. It completes for every operand and state. The encoding
clause rests on bytes the spec has from general knowledge (PRESUMED, entry 2; D2, I1); the effect does not. -/
def Obligations.AdcZeroPageAddsTheZeroPageByte : Prop :=
  ∀ (address : Byte) (s : Machine.State),
    let ea := addr address.toNat
    encode (.adcZero address) = [0x65, address] ∧ (Instr.adcZero address).length = 2 ∧
    (operandBus (.adcZero address) s).reads = [ea] ∧
    ∃ t, exec (.adcZero address) s = .next t ∧ invoke (.adcZero address) s = (.unit, t) ∧ AddsWithCarry s (s.memRead ea) t

/-- 41_adc.md R87, 40_addressing.md R70: ADC zero-page,X, the index wrapping in the zero page. The encoding
clause rests on bytes the spec has from general knowledge (PRESUMED, entry 2; D2, I1); the effect does not. -/
def Obligations.AdcZeroPageXAddsTheIndexedByte : Prop :=
  ∀ (address : Byte) (s : Machine.State),
    let ea := addr ((address.toNat + s.X.toNat) % 256)
    encode (.adcZeroX address) = [0x75, address] ∧ (Instr.adcZeroX address).length = 2 ∧
    (operandBus (.adcZeroX address) s).reads = [ea] ∧
    ∃ t, exec (.adcZeroX address) s = .next t ∧ invoke (.adcZeroX address) s = (.unit, t) ∧ AddsWithCarry s (s.memRead ea) t

/-- 41_adc.md R88, 40_addressing.md R71: ADC absolute, at any of the 65,536 addresses. The encoding
clause rests on bytes the spec has from general knowledge (PRESUMED, entry 2; D2, I1); the effect does not. -/
def Obligations.AdcAbsoluteAddsTheAddressedByte : Prop :=
  ∀ (address : Word) (s : Machine.State),
    encode (.adcAbs address) = [0x6D, BitVec.ofNat 8 address.toNat, BitVec.ofNat 8 (address.toNat / 256)] ∧
    (Instr.adcAbs address).length = 3 ∧ (operandBus (.adcAbs address) s).reads = [address] ∧
    ∃ t, exec (.adcAbs address) s = .next t ∧ invoke (.adcAbs address) s = (.unit, t) ∧ AddsWithCarry s (s.memRead address) t

/-- 41_adc.md R89, 40_addressing.md R72: ADC absolute,X, carrying across pages and wrapping at 0xFFFF. The encoding
clause rests on bytes the spec has from general knowledge (PRESUMED, entry 2; D2, I1); the effect does not. -/
def Obligations.AdcAbsoluteXAddsTheIndexedByte : Prop :=
  ∀ (address : Word) (s : Machine.State),
    let ea := addr ((address.toNat + s.X.toNat) % 65536)
    encode (.adcAbsX address) = [0x7D, BitVec.ofNat 8 address.toNat, BitVec.ofNat 8 (address.toNat / 256)] ∧
    (Instr.adcAbsX address).length = 3 ∧ (operandBus (.adcAbsX address) s).reads = [ea] ∧
    ∃ t, exec (.adcAbsX address) s = .next t ∧ invoke (.adcAbsX address) s = (.unit, t) ∧ AddsWithCarry s (s.memRead ea) t

/-- 41_adc.md R90, 40_addressing.md R73: ADC absolute,Y, carrying across pages and wrapping at 0xFFFF. The encoding
clause rests on bytes the spec has from general knowledge (PRESUMED, entry 2; D2, I1); the effect does not. -/
def Obligations.AdcAbsoluteYAddsTheIndexedByte : Prop :=
  ∀ (address : Word) (s : Machine.State),
    let ea := addr ((address.toNat + s.Y.toNat) % 65536)
    encode (.adcAbsY address) = [0x79, BitVec.ofNat 8 address.toNat, BitVec.ofNat 8 (address.toNat / 256)] ∧
    (Instr.adcAbsY address).length = 3 ∧ (operandBus (.adcAbsY address) s).reads = [ea] ∧
    ∃ t, exec (.adcAbsY address) s = .next t ∧ invoke (.adcAbsY address) s = (.unit, t) ∧ AddsWithCarry s (s.memRead ea) t

/-- 41_adc.md R91, 40_addressing.md R74: ADC (indirect,X), with the pointer's two reads and then the operand's. The encoding
clause rests on bytes the spec has from general knowledge (PRESUMED, entry 2; D2, I1); the effect does not. -/
def Obligations.AdcIndirectXAddsThePointedByte : Prop :=
  ∀ (address : Byte) (s : Machine.State),
    let p := (address.toNat + s.X.toNat) % 256
    let p1 := (p + 1) % 256
    let ea := addr ((s.memRead (addr p1)).toNat * 256 + (s.memRead (addr p)).toNat)
    encode (.adcIndX address) = [0x61, address] ∧ (Instr.adcIndX address).length = 2 ∧
    (operandBus (.adcIndX address) s).reads = [addr p, addr p1, ea] ∧
    ∃ t, exec (.adcIndX address) s = .next t ∧ invoke (.adcIndX address) s = (.unit, t) ∧ AddsWithCarry s (s.memRead ea) t

/-- 41_adc.md R92, 40_addressing.md R75: ADC (indirect),Y, the pointer fetched in the zero page and Y added to it modulo 65536. The encoding
clause rests on bytes the spec has from general knowledge (PRESUMED, entry 2; D2, I1); the effect does not. -/
def Obligations.AdcIndirectYAddsThePointedByte : Prop :=
  ∀ (address : Byte) (s : Machine.State),
    let a1 := (address.toNat + 1) % 256
    let ptr := (s.memRead (addr a1)).toNat * 256 + (s.memRead (addr address.toNat)).toNat
    let ea := addr ((ptr + s.Y.toNat) % 65536)
    encode (.adcIndY address) = [0x71, address] ∧ (Instr.adcIndY address).length = 2 ∧
    (operandBus (.adcIndY address) s).reads = [addr address.toNat, addr a1, ea] ∧
    ∃ t, exec (.adcIndY address) s = .next t ∧ invoke (.adcIndY address) s = (.unit, t) ∧ AddsWithCarry s (s.memRead ea) t

/-- The frame of all eight instructions, which the spec derives (41_adc.md section 4): X, Y, PC, the bits I, D and B, and every byte of
memory are unchanged; only A and C, Z, V and N may differ. -/
def Obligations.AdcFrame : Prop :=
  ∀ (i : Instr) (s t : Machine.State), exec i s = .next t →
    t.X = s.X ∧ t.Y = s.Y ∧ t.PC = s.PC ∧ t.P &&& 0x3C = s.P &&& 0x3C ∧ (∀ a, t.memRead a = s.memRead a) ∧ t.mem = s.mem

/-- 60_exceptions.md R100: every instruction completes for every operand, register and memory value, and no step faults. -/
def Obligations.NoOperationFails : Prop :=
  (∀ (i : Instr) (s : Machine.State), ∃ t, exec i s = .next t) ∧ ∀ (s : Machine.State) (f : Fault), step s ≠ .fault f

/-- Adding numbers of any number of bytes by a chain of adds gives the exact sum, carry in and carry out included: the carry one add
writes is the carry the next one reads (70_reset_and_hazards.md section 3 and 41_adc.md section 2, both derived there). -/
def Obligations.MultiByteAdditionIsExact : Prop :=
  ∀ (pairs : List (Byte × Byte)) (s : Machine.State),
    (addChain pairs s).1.length = pairs.length ∧
    leValue (addChain pairs s).1 + 256 ^ pairs.length * ((addChain pairs s).2.P.getLsbD 0).toNat =
      leValue (pairs.map Prod.fst) + leValue (pairs.map Prod.snd) + (s.P.getLsbD 0).toNat

/-! ### Encoding (30_encoding.md sections 2, 3 and 5) -/

/-- The opcode table and the 248 refused bytes (30_encoding.md section 3). The bytes are from general knowledge there (D2; entry 2). -/
def Obligations.OpcodeTableIsTheEightRows : Prop :=
  (∀ row ∈ ([(0x61, 0b000, .indirectX, 2), (0x65, 0b001, .zeroPage, 2), (0x69, 0b010, .immediate, 2),
      (0x6D, 0b011, .absolute, 3), (0x71, 0b100, .indirectY, 2), (0x75, 0b101, .zeroPageX, 2), (0x79, 0b110, .absoluteY, 3),
      (0x7D, 0b111, .absoluteX, 3)] : List (Byte × BitVec 3 × Mode × Nat)),
    row.1 = 0b011#3 ++ row.2.1 ++ 0b01#2 ∧ modeOfOpcode row.1 = some row.2.2.1 ∧ row.2.2.1.opcode = row.1 ∧
    row.2.2.1.length = row.2.2.2) ∧
  (∀ (op : Byte) (rest : List Byte), op ∉ adcOpcodes → decode (op :: rest) = .error (.refusedOpcode op)) ∧
  ((List.range 256).filter fun n => (modeOfOpcode (BitVec.ofNat 8 n)).isNone).length = 248

/-- 30_encoding.md R47: an abs16 operand is `b2:b1`, first byte low; a one-byte operand is that byte, unextended. -/
def Obligations.OperandBytesAreAssembledLowFirst : Prop :=
  ∀ b1 b2 : Byte,
    (∃ w : Word, w.toNat = b2.toNat * 256 + b1.toNat ∧ assemble .absolute [b1, b2] = some (.adcAbs w) ∧
      assemble .absoluteX [b1, b2] = some (.adcAbsX w) ∧ assemble .absoluteY [b1, b2] = some (.adcAbsY w)) ∧
    assemble .immediate [b1] = some (.adcImm b1) ∧ assemble .zeroPage [b1] = some (.adcZero b1) ∧
    assemble .zeroPageX [b1] = some (.adcZeroX b1) ∧ assemble .indirectX [b1] = some (.adcIndX b1) ∧
    assemble .indirectY [b1] = some (.adcIndY b1)

/-- A call with the wrong number of operand bytes is refused as ill-formed and is no instruction; every other call is one
(30_encoding.md section 2; that a mis-sized call is a refused term is the model's choice, entry 7). -/
def Obligations.MisSizedOperandIsNoInstruction : Prop :=
  ∀ c : RawCall, (c.wellFormed = false ↔ assemble c.mode c.operand = none) ∧
    ∀ i, assemble c.mode c.operand = some i → i.wellFormed = true ∧ i.mode = c.mode

/-- Decoding an encoded well-formed instruction gives it back, with whatever bytes follow, for every operand of every variant
(bytes of entry 2; D2). -/
def Obligations.DecodeOfEncodeIsTheInstruction : Prop :=
  ∀ (i : Instr) (rest : List Byte), i.wellFormed = true → decode (encode i ++ rest) = .ok (i, rest)

/-- Each byte sequence has one meaning: what decodes is the encoding of the instruction, then the rest (bytes of entry 2; D2). -/
def Obligations.EncodeOfDecodeIsTheBytes : Prop :=
  ∀ (bs rest : List Byte) (i : Instr), decode bs = .ok (i, rest) → encode i ++ rest = bs

/-- Words written out from 30_encoding.md section 3 and 95_test_vectors.md section 2.6 decode to the instruction they stand for
(bytes of entry 2; D2). -/
def Obligations.SpecWordsDecode : Prop :=
  decode [0x69, 0x05] = .ok (.adcImm 0x05, []) ∧ decode [0x6D, 0x34, 0x12] = .ok (.adcAbs 0x1234, []) ∧
  decode [0x65, 0x10, 0x00] = .ok (.adcZero 0x10, [0x00]) ∧ decode [0x61, 0xFE] = .ok (.adcIndX 0xFE, []) ∧
  decode [0x71, 0x40] = .ok (.adcIndY 0x40, []) ∧ decode [0x75, 0x10] = .ok (.adcZeroX 0x10, []) ∧
  decode [0x7D, 0x34, 0x12] = .ok (.adcAbsX 0x1234, []) ∧ decode [0x79, 0x34, 0x12] = .ok (.adcAbsY 0x1234, []) ∧
  decode [0xEA] = .error (.refusedOpcode 0xEA) ∧ decode [0xE9, 0x10] = .error (.refusedOpcode 0xE9)

/-! ### The reference harness (30_encoding.md section 4). Its bytes are from general knowledge there (D2; entry 2). -/

/-- When the bytes at PC decode to an instruction, a step is that instruction after PC has moved past its bytes. -/
def Obligations.StepRunsTheDecodedInstruction : Prop :=
  ∀ (s : Machine.State) (i : Instr) (rest : List Byte), decode (s.mem.readBytes s.PC 3) = .ok (i, rest) →
    step s = exec i (s.setPC (addr ((s.PC.toNat + i.length) % 65536)))

/-- The whole harness step, opcode by opcode: fetch, decode, operand fetch wrapping at 0xFFFF, PC advance, execute (30_encoding.md R53
to R57). Which byte runs which variant is the table of R49, from general knowledge there (PRESUMED, entry 2; D2, I1); that step is
the harness's, and its wrapping of PC and operand fetch, are the spec's decisions D2 and D3 (entries 3 and 4). -/
def Obligations.HarnessStepFollowsThePseudocode : Prop :=
  ∀ s : Machine.State,
    let op := s.memRead s.PC
    let b1 := s.memRead (addr ((s.PC.toNat + 1) % 65536))
    let b2 := s.memRead (addr ((s.PC.toNat + 2) % 65536))
    let word := addr (b2.toNat * 256 + b1.toNat)
    let past2 := s.setPC (addr ((s.PC.toNat + 2) % 65536))
    let past3 := s.setPC (addr ((s.PC.toNat + 3) % 65536))
    (op ∉ adcOpcodes → step s = .refused (.refusedOpcode s.PC op)) ∧
    (op = 0x61 → step s = exec (.adcIndX b1) past2) ∧ (op = 0x65 → step s = exec (.adcZero b1) past2) ∧
    (op = 0x69 → step s = exec (.adcImm b1) past2) ∧ (op = 0x6D → step s = exec (.adcAbs word) past3) ∧
    (op = 0x71 → step s = exec (.adcIndY b1) past2) ∧ (op = 0x75 → step s = exec (.adcZeroX b1) past2) ∧
    (op = 0x79 → step s = exec (.adcAbsY word) past3) ∧ (op = 0x7D → step s = exec (.adcAbsX word) past3)

/-- 30_encoding.md R56: a step that goes on leaves PC moved by the length of the opcode at the old PC, 2 or 3, modulo 65536; and no
ADC operation reads PC, so it does not matter which comes first. -/
def Obligations.StepAdvancesPcByTheLength : Prop :=
  (∀ s t : Machine.State, step s = .next t → ∃ m, modeOfOpcode (s.memRead s.PC) = some m ∧ (m.length = 2 ∨ m.length = 3) ∧
    t.PC.toNat = (s.PC.toNat + m.length) % 65536) ∧
  ∀ (i : Instr) (s t : Machine.State) (pc : Word), exec i s = .next t → exec i (s.setPC pc) = .next (t.setPC pc)

/-- A byte outside the eight ends the run at once with `Refused(PC, op)`, registers and memory as they were, and that end is normal
exactly when PC is the designated end address; one of the eight goes on (30_encoding.md section 4; D2, D19). -/
def Obligations.UnknownOpcodeEndsTheRunUnchanged : Prop :=
  ∀ s : Machine.State,
    (s.memRead s.PC ∉ adcOpcodes →
      step s = .refused (.refusedOpcode s.PC (s.memRead s.PC)) ∧
      ∀ n, harnessRun (n + 1) s = .refused s (.refusedOpcode s.PC (s.memRead s.PC)) ∧
        ∀ a, EndsNormally (n + 1) s a ↔ a = s.PC) ∧
    (s.memRead s.PC ∈ adcOpcodes → ∃ t, step s = .next t)

/-- A refused run is over: more fuel changes nothing, the refusal names the byte at the final PC, and that byte is none of the
eight (30_encoding.md section 4; D19). -/
def Obligations.RefusedRunIsFinal : Prop :=
  ∀ (n m : Nat) (s t : Machine.State) (r : Refusal), harnessRun n s = .refused t r → n ≤ m →
    harnessRun m s = .refused t r ∧ r = .refusedOpcode t.PC (t.memRead t.PC) ∧ t.memRead t.PC ∉ adcOpcodes

/-- A stored instruction runs: when the bytes of an instruction are placed at PC, wherever PC is, the next step is that instruction
and nothing else, with PC past its bytes (30_encoding.md section 4; entry 8). -/
def Obligations.PlacedInstructionIsTheOneThatRuns : Prop :=
  ∀ (i : Instr) (s : Machine.State), CanonicalMemory s →
    let loaded := placeAtPC s (encode i)
    loaded.toRegisters = s.toRegisters ∧
    (∀ a : Word, (∀ k, k < i.length → a ≠ s.PC + BitVec.ofNat 16 k) → loaded.memRead a = s.memRead a) ∧
    step loaded = exec i (loaded.setPC (addr ((s.PC.toNat + i.length) % 65536)))

/-- A table word placed by `withFetchWord` runs as the instruction `decodeTableWord` reads from it (entry 8). -/
def Obligations.FetchWordRunsAsItsTableWordDecodes : Prop :=
  ∀ (nbits w : Nat) (s : Machine.State) (i : Instr), CanonicalMemory s → decodeTableWord nbits w = some i →
    step (s.withFetchWord nbits w) = exec i ((s.withFetchWord nbits w).setPC (addr ((s.PC.toNat + i.length) % 65536)))

/-! ### The bus account (20_memory.md section 2, 40_addressing.md R76) -/

/-- 40_addressing.md R76: the complete sequence of bus reads of each variant, in order; the operand is what those reads give, and
no variant writes memory; under the harness the opcode and operand bytes are read first. The order and the absence of other reads
are the spec's decision D7. -/
def Obligations.BusReadsAreTheTableRows : Prop :=
  ∀ (s t : Machine.State) (b : Byte) (w : Word),
    (operandBus (.adcImm b) s).reads = [] ∧ (operandBus (.adcZero b) s).reads = [zext16 b] ∧
    (operandBus (.adcZeroX b) s).reads = [zeroIdx b s.X] ∧ (operandBus (.adcAbs w) s).reads = [w] ∧
    (operandBus (.adcAbsX w) s).reads = [absIdx w s.X] ∧ (operandBus (.adcAbsY w) s).reads = [absIdx w s.Y] ∧
    (operandBus (.adcIndX b) s).reads =
      [zext16 (b + s.X), zext16 (b + s.X + 1), indirectX s.mem b s.X] ∧
    (operandBus (.adcIndY b) s).reads = [zext16 b, zext16 (b + 1), indirectY s.mem b s.Y] ∧
    (∀ i : Instr, (execBus i s).value = exec i s ∧ (execBus i s).reads = (operandBus i s).reads ∧
      (exec i s = .next t → t.mem = s.mem)) ∧
    ∀ (i : Instr) (rest : List Byte), decode (s.mem.readBytes s.PC 3) = .ok (i, rest) →
      (stepBus s).reads = [s.PC, s.PC + 1, s.PC + 2].take i.length ++ (operandBus i s).reads

/-- The pseudocode of the harness step, carried out through single-byte bus reads only, is the step of the machine. -/
def Obligations.BusPseudocodeRefinesTheStep : Prop :=
  ∀ s : Machine.State, (stepBus s).value = step s

/-- A step depends on the registers and on the bytes it reads, and on no other byte of memory: two states with equal registers that
agree on the bytes read make the same reads, and end refused alike or with equal registers. -/
def Obligations.StepDependsOnlyOnTheBytesItReads : Prop :=
  ∀ s t : Machine.State, s.toRegisters = t.toRegisters → (∀ a ∈ (stepBus s).reads, s.memRead a = t.memRead a) →
    (stepBus t).reads = (stepBus s).reads ∧
    ((∃ r, step s = .refused r ∧ step t = .refused r) ∨
      ∃ s' t', step s = .next s' ∧ step t = .next t' ∧ s'.toRegisters = t'.toRegisters)

/-! ### The host interface (60_exceptions.md) -/

/-- 60_exceptions.md R107: each interaction of the table has its effect and no other. Reading and writing memory are the bus
primitives `read` and `write`, invoked (30_encoding.md section 1), and the exposed `read` answers the byte at its address and changes
nothing. `CanonicalMemory` is the canonical form of the memory list. -/
def Obligations.HostInteractionsWriteOnlyTheirTarget : Prop :=
  ∀ (s : Machine.State) (v : Byte) (w a : Word) (op : Operation),
    (∀ r, hostAct (.readReg r) s = (.byte (s.getReg8 r), s)) ∧ hostAct .readPC s = (.word s.PC, s) ∧
    s.getReg8 .A = s.A ∧ s.getReg8 .X = s.X ∧ s.getReg8 .Y = s.Y ∧ s.getReg8 .P = s.P ∧
    hostAct (.writeReg .A v) s = (.unit, { s with A := v }) ∧ hostAct (.writeReg .X v) s = (.unit, { s with X := v }) ∧
    hostAct (.writeReg .Y v) s = (.unit, { s with Y := v }) ∧ hostAct (.writeReg .P v) s = (.unit, { s with P := v }) ∧
    hostAct (.writePC w) s = (.unit, { s with PC := w }) ∧
    hostAct (.readMem a) s = (.byte (s.memRead a), s) ∧ invoke (.read a) s = (.byte (s.memRead a), s) ∧
    hostAct (.writeMem a v) s = invoke (.write a v) s ∧
    (CanonicalMemory s → ∃ t, hostAct (.writeMem a v) s = (.unit, t) ∧ t.toRegisters = s.toRegisters ∧
      ∀ b, hostAct (.readMem b) t = (.byte (if b = a then v else s.memRead b), t)) ∧
    hostAct .reset s = invoke .reset s ∧ hostAct (.invoke op) s = invoke op s

/-- A host that puts back the five registers and every byte of memory has the saved state again, from whatever state it finds: there
is no hidden state (60_exceptions.md section 5, derived there). -/
def Obligations.RestoredStateIsTheSavedState : Prop :=
  ∀ saved s : Machine.State, CanonicalMemory saved → CanonicalMemory s → (hostRun (restoreActions saved) s).2 = saved
end

