-- ==== Sys2Proof/Laws/Bytes.lean ====
section
/-! SUPPORT. The byte-order helpers as numbers (00_scope.md R5). -/

namespace Sys2Proof.Machine

@[simp] theorem zext16_toNat (b : Byte) : (zext16 b).toNat = b.toNat := by
  simp [zext16]; omega

@[simp] theorem hiLo_toNat (hi lo : Byte) : (hiLo hi lo).toNat = hi.toNat * 256 + lo.toNat := by
  have := lo.isLt
  simp only [hiLo, BitVec.toNat_append]
  rw [← Nat.shiftLeft_add_eq_or_of_lt this, Nat.shiftLeft_eq]

@[simp] theorem lo8_toNat (w : Word) : (lo8 w).toNat = w.toNat % 256 := by
  simp [lo8]

@[simp] theorem hi8_toNat (w : Word) : (hi8 w).toNat = w.toNat / 256 := by
  have := w.isLt
  simp [hi8, Nat.shiftRight_eq_div_pow]
  omega

@[simp] theorem b2b_toNat (c : Bool) : (b2b c).toNat = c.toNat := by
  cases c <;> rfl

/-- The carry as the number that completes the wrapped sum (00_scope.md R5). -/
theorem addCarry_spec (a b : Byte) : (a + b).toNat + 256 * (addCarry a b).toNat = a.toNat + b.toNat := by
  have := a.isLt
  have := b.isLt
  simp only [addCarry, BitVec.toNat_add]
  by_cases h : a.toNat + b.toNat > 255
  · rw [decide_eq_true h, Bool.toNat_true]; omega
  · rw [decide_eq_false h, Bool.toNat_false]; omega

@[simp] theorem hiLo_hi8_lo8 (w : Word) : hiLo (hi8 w) (lo8 w) = w := by
  apply BitVec.eq_of_toNat_eq
  have := w.isLt
  simp
  omega

@[simp] theorem lo8_hiLo (hi lo : Byte) : lo8 (hiLo hi lo) = lo := by
  apply BitVec.eq_of_toNat_eq
  have := lo.isLt
  simp
  omega

@[simp] theorem hi8_hiLo (hi lo : Byte) : hi8 (hiLo hi lo) = hi := by
  apply BitVec.eq_of_toNat_eq
  have := lo.isLt
  simp
  omega

end Sys2Proof.Machine
end

