-- ==== Sys2Proof/Laws/State.lean ====
section
/-! SUPPORT. The fields of a state after each named update, one lemma per field per update. -/

namespace Sys2Proof.Machine

variable (s : State)

@[simp] theorem State.setA_A (v : Byte) : (s.setA v).A = v := rfl
@[simp] theorem State.setA_X (v : Byte) : (s.setA v).X = s.X := rfl
@[simp] theorem State.setA_Y (v : Byte) : (s.setA v).Y = s.Y := rfl
@[simp] theorem State.setA_P (v : Byte) : (s.setA v).P = s.P := rfl
@[simp] theorem State.setA_PC (v : Byte) : (s.setA v).PC = s.PC := rfl
@[simp] theorem State.setA_mem (v : Byte) : (s.setA v).mem = s.mem := rfl

@[simp] theorem State.setX_A (v : Byte) : (s.setX v).A = s.A := rfl
@[simp] theorem State.setX_X (v : Byte) : (s.setX v).X = v := rfl
@[simp] theorem State.setX_Y (v : Byte) : (s.setX v).Y = s.Y := rfl
@[simp] theorem State.setX_P (v : Byte) : (s.setX v).P = s.P := rfl
@[simp] theorem State.setX_PC (v : Byte) : (s.setX v).PC = s.PC := rfl
@[simp] theorem State.setX_mem (v : Byte) : (s.setX v).mem = s.mem := rfl

@[simp] theorem State.setY_A (v : Byte) : (s.setY v).A = s.A := rfl
@[simp] theorem State.setY_X (v : Byte) : (s.setY v).X = s.X := rfl
@[simp] theorem State.setY_Y (v : Byte) : (s.setY v).Y = v := rfl
@[simp] theorem State.setY_P (v : Byte) : (s.setY v).P = s.P := rfl
@[simp] theorem State.setY_PC (v : Byte) : (s.setY v).PC = s.PC := rfl
@[simp] theorem State.setY_mem (v : Byte) : (s.setY v).mem = s.mem := rfl

@[simp] theorem State.setP_A (v : Byte) : (s.setP v).A = s.A := rfl
@[simp] theorem State.setP_X (v : Byte) : (s.setP v).X = s.X := rfl
@[simp] theorem State.setP_Y (v : Byte) : (s.setP v).Y = s.Y := rfl
@[simp] theorem State.setP_P (v : Byte) : (s.setP v).P = v := rfl
@[simp] theorem State.setP_PC (v : Byte) : (s.setP v).PC = s.PC := rfl
@[simp] theorem State.setP_mem (v : Byte) : (s.setP v).mem = s.mem := rfl

@[simp] theorem State.setPC_A (v : Word) : (s.setPC v).A = s.A := rfl
@[simp] theorem State.setPC_X (v : Word) : (s.setPC v).X = s.X := rfl
@[simp] theorem State.setPC_Y (v : Word) : (s.setPC v).Y = s.Y := rfl
@[simp] theorem State.setPC_P (v : Word) : (s.setPC v).P = s.P := rfl
@[simp] theorem State.setPC_PC (v : Word) : (s.setPC v).PC = v := rfl
@[simp] theorem State.setPC_mem (v : Word) : (s.setPC v).mem = s.mem := rfl

@[simp] theorem State.setFlag_A (m : Byte) (c : Bool) : (s.setFlag m c).A = s.A := rfl
@[simp] theorem State.setFlag_X (m : Byte) (c : Bool) : (s.setFlag m c).X = s.X := rfl
@[simp] theorem State.setFlag_Y (m : Byte) (c : Bool) : (s.setFlag m c).Y = s.Y := rfl
@[simp] theorem State.setFlag_P (m : Byte) (c : Bool) : (s.setFlag m c).P = FlagSet.set s.P m c := rfl
@[simp] theorem State.setFlag_PC (m : Byte) (c : Bool) : (s.setFlag m c).PC = s.PC := rfl
@[simp] theorem State.setFlag_mem (m : Byte) (c : Bool) : (s.setFlag m c).mem = s.mem := rfl

@[simp] theorem State.advancePC_A (n : Nat) : (s.advancePC n).A = s.A := rfl
@[simp] theorem State.advancePC_X (n : Nat) : (s.advancePC n).X = s.X := rfl
@[simp] theorem State.advancePC_Y (n : Nat) : (s.advancePC n).Y = s.Y := rfl
@[simp] theorem State.advancePC_P (n : Nat) : (s.advancePC n).P = s.P := rfl
@[simp] theorem State.advancePC_PC (n : Nat) : (s.advancePC n).PC = s.PC + BitVec.ofNat 16 n := rfl
@[simp] theorem State.advancePC_mem (n : Nat) : (s.advancePC n).mem = s.mem := rfl

@[simp] theorem State.memWrite_A (a : Word) (v : Byte) : (s.memWrite a v).A = s.A := rfl
@[simp] theorem State.memWrite_X (a : Word) (v : Byte) : (s.memWrite a v).X = s.X := rfl
@[simp] theorem State.memWrite_Y (a : Word) (v : Byte) : (s.memWrite a v).Y = s.Y := rfl
@[simp] theorem State.memWrite_P (a : Word) (v : Byte) : (s.memWrite a v).P = s.P := rfl
@[simp] theorem State.memWrite_PC (a : Word) (v : Byte) : (s.memWrite a v).PC = s.PC := rfl
@[simp] theorem State.memWrite_mem (a : Word) (v : Byte) : (s.memWrite a v).mem = s.mem.write a.toNat v := rfl

@[simp] theorem State.setRegisters_A (r : Registers) : (s.setRegisters r).A = r.A := rfl
@[simp] theorem State.setRegisters_X (r : Registers) : (s.setRegisters r).X = r.X := rfl
@[simp] theorem State.setRegisters_Y (r : Registers) : (s.setRegisters r).Y = r.Y := rfl
@[simp] theorem State.setRegisters_P (r : Registers) : (s.setRegisters r).P = r.P := rfl
@[simp] theorem State.setRegisters_PC (r : Registers) : (s.setRegisters r).PC = r.PC := rfl
@[simp] theorem State.setRegisters_mem (r : Registers) : (s.setRegisters r).mem = s.mem := rfl

@[simp] theorem State.resetRegisters_A : (s.resetRegisters).A = 0 := rfl
@[simp] theorem State.resetRegisters_X : (s.resetRegisters).X = 0 := rfl
@[simp] theorem State.resetRegisters_Y : (s.resetRegisters).Y = 0 := rfl
@[simp] theorem State.resetRegisters_P : (s.resetRegisters).P = 0 := rfl
@[simp] theorem State.resetRegisters_PC : (s.resetRegisters).PC = 0 := rfl
@[simp] theorem State.resetRegisters_mem : (s.resetRegisters).mem = s.mem := rfl

@[simp] theorem placeAtPC_toRegisters (bs : List Byte) : (placeAtPC s bs).toRegisters = s.toRegisters := rfl
@[simp] theorem placeAtPC_mem (bs : List Byte) : (placeAtPC s bs).mem = s.mem.writeBytes s.PC bs := rfl

/-- A state is its register file and its memory (10_state.md R11). -/
theorem State.ext_fields {s t : State} (hA : s.A = t.A) (hX : s.X = t.X) (hY : s.Y = t.Y) (hP : s.P = t.P)
    (hPC : s.PC = t.PC) (hm : s.mem = t.mem) : s = t := by
  obtain ⟨⟨_, _, _, _, _⟩, _⟩ := s
  obtain ⟨⟨_, _, _, _, _⟩, _⟩ := t
  simp_all

end Sys2Proof.Machine
end

