-- ==== Sys2Proof/Laws/Memory.lean ====
section
/-! SUPPORT. Memory: reading after writing, and that every memory operation keeps the canonical form (entry 1). -/

namespace Sys2Proof.Machine

/-- One reading of an entry of a canonical list. -/
theorem Memory.wfFrom_cons {lo k : Nat} {v : Byte} {m : Memory} :
    Memory.wfFrom lo ((k, v) :: m) = true ↔
      lo ≤ k ∧ k < Config.addressCount ∧ v ≠ Config.unlistedByte ∧ Memory.wfFrom (k + 1) m = true := by
  simp [Memory.wfFrom, and_assoc]

/-- A canonical list is canonical from any lower address on. -/
theorem Memory.wfFrom_mono {m : Memory} {lo lo' : Nat} (h : Memory.wfFrom lo m = true) (hl : lo' ≤ lo) :
    Memory.wfFrom lo' m = true := by
  cases m with
  | nil => rfl
  | cons e m =>
    obtain ⟨h1, h2, h3, h4⟩ := Memory.wfFrom_cons.1 h
    exact Memory.wfFrom_cons.2 ⟨hl.trans h1, h2, h3, h4⟩

/-- Below its first address a canonical list names nothing. -/
theorem Memory.read_below {m : Memory} {lo a : Nat} (h : Memory.wfFrom lo m = true) (ha : a < lo) :
    m.read a = Config.unlistedByte := by
  induction m generalizing lo with
  | nil => rfl
  | cons e m ih =>
    obtain ⟨h1, _, _, h4⟩ := Memory.wfFrom_cons.1 h
    have hne : a ≠ e.1 := by omega
    simp only [Memory.read, hne, if_false]
    exact ih h4 (by omega)

/-- A write leaves every other address alone, whatever the list (20_memory.md R32). -/
theorem Memory.read_write_other {m : Memory} {a b : Nat} {v : Byte} (h : b ≠ a) :
    (m.write a v).read b = m.read b := by
  induction m with
  | nil => by_cases hv : v = Config.unlistedByte <;> simp [Memory.write, Memory.read, hv, h]
  | cons e m ih =>
    obtain ⟨k, w⟩ := e
    simp only [Memory.write]
    split
    · split <;> simp [Memory.read, h]
    · split
      · next hk => subst hk; split <;> simp [Memory.read, h]
      · simp [Memory.read, ih]

/-- A read after a write to the same address gives the value written (20_memory.md R32). -/
theorem Memory.read_write_same {m : Memory} {lo a : Nat} {v : Byte} (h : Memory.wfFrom lo m = true) :
    (m.write a v).read a = v := by
  induction m generalizing lo with
  | nil => by_cases hv : v = Config.unlistedByte <;> simp [Memory.write, Memory.read, hv]
  | cons e m ih =>
    obtain ⟨k, w⟩ := e
    obtain ⟨_, _, _, h4⟩ := Memory.wfFrom_cons.1 h
    simp only [Memory.write]
    split
    · next hk =>
      split
      · next hv =>
        have hb := Memory.read_below h4 (show a < k + 1 by omega)
        have hne : a ≠ k := by omega
        simp [Memory.read, hne, hb, hv]
      · simp [Memory.read]
    · split
      · next hk =>
        subst hk
        split
        · next hv => rw [Memory.read_below h4 (by omega), hv]
        · simp [Memory.read]
      · next hk => simp [Memory.read, hk, ih h4]

/-- A write keeps the canonical form from any bound the written address respects. -/
theorem Memory.write_wfFrom {m : Memory} {lo a : Nat} {v : Byte} (h : Memory.wfFrom lo m = true) (hlo : lo ≤ a)
    (ha : a < Config.addressCount) : Memory.wfFrom lo (m.write a v) = true := by
  induction m generalizing lo with
  | nil =>
    simp only [Memory.write]
    split
    · rfl
    · next hv => exact Memory.wfFrom_cons.2 ⟨hlo, ha, hv, rfl⟩
  | cons e m ih =>
    obtain ⟨k, w⟩ := e
    obtain ⟨h1, h2, h3, h4⟩ := Memory.wfFrom_cons.1 h
    simp only [Memory.write]
    split
    · next hk =>
      split
      · exact h
      · next hv => exact Memory.wfFrom_cons.2 ⟨hlo, ha, hv, Memory.wfFrom_cons.2 ⟨hk, h2, h3, h4⟩⟩
    · split
      · next hk =>
        subst hk
        split
        · exact Memory.wfFrom_mono h4 (by omega)
        · next hv => exact Memory.wfFrom_cons.2 ⟨hlo, ha, hv, h4⟩
      · next hk hne => exact Memory.wfFrom_cons.2 ⟨h1, h2, h3, ih h4 (by omega)⟩

/-- `Memory.write` keeps the canonical form. -/
theorem Memory.write_wf {m : Memory} {a : Nat} {v : Byte} (h : m.wf = true) (ha : a < Config.addressCount) :
    (m.write a v).wf = true :=
  Memory.write_wfFrom h (Nat.zero_le a) ha

/-- `Memory.writeBytes` keeps the canonical form. -/
theorem Memory.writeBytes_wf {m : Memory} {a : Word} {bs : List Byte} (h : m.wf = true) :
    (m.writeBytes a bs).wf = true := by
  induction bs generalizing m a with
  | nil => exact h
  | cons b bs ih => exact ih (Memory.write_wf h a.isLt)

/-- `Memory.tabulate` keeps the canonical form. -/
theorem Memory.tabulate_wf {f : Nat → Byte} {n : Nat} (h : n ≤ Config.addressCount) :
    (Memory.tabulate f n).wf = true := by
  induction n with
  | zero => rfl
  | succ n ih => exact Memory.write_wf (ih (by omega)) (by omega)

/-- The bus write as reads of the state after it. -/
theorem State.memRead_memWrite {s : State} {a b : Word} {v : Byte} (h : s.mem.wf = true) :
    (s.memWrite a v).memRead b = if b = a then v else s.memRead b := by
  split
  · next hb => subst hb; exact Memory.read_write_same h
  · next hb => exact Memory.read_write_other fun e => hb (BitVec.eq_of_toNat_eq e)

/-- The bus write keeps memory canonical. -/
theorem State.memWrite_wf {s : State} {a : Word} {v : Byte} (h : s.mem.wf = true) : (s.memWrite a v).mem.wf = true :=
  Memory.write_wf h a.isLt

end Sys2Proof.Machine
end

