-- ==== Sys2Proof/Laws/Adc.lean ====
section
/-! SUPPORT. The status fields as bits, and all that `adcCommon` does (41_adc.md R81, R93). -/

namespace Sys2Proof.Machine

@[simp] theorem Status.carry_eq (p : Byte) : Status.carry p = p.getLsbD 0 := by revert p; decide
@[simp] theorem Status.zero_eq (p : Byte) : Status.zero p = p.getLsbD 1 := by revert p; decide
@[simp] theorem Status.interruptDisable_eq (p : Byte) : Status.interruptDisable p = p.getLsbD 2 := by revert p; decide
@[simp] theorem Status.decimal_eq (p : Byte) : Status.decimal p = p.getLsbD 3 := by revert p; decide
@[simp] theorem Status.overflow_eq (p : Byte) : Status.overflow p = p.getLsbD 6 := by revert p; decide
@[simp] theorem Status.negative_eq (p : Byte) : Status.negative p = p.getLsbD 7 := by revert p; decide

/-- The status byte the flag updater leaves: C, V, N and Z written, I, D and B kept (41_adc.md R81, R93). -/
def adcStatus (p : Byte) (c v n z : Bool) : Byte :=
  FlagSet.set (FlagSet.set (FlagSet.set (FlagSet.set p maskC c) maskV v) maskN n) maskZ z

/-- The bits of the status byte after the flag updater. -/
theorem adcStatus_bits (p : Byte) (c v n z : Bool) :
    (adcStatus p c v n z).getLsbD 0 = c ∧ (adcStatus p c v n z).getLsbD 1 = z ∧ (adcStatus p c v n z).getLsbD 6 = v ∧
      (adcStatus p c v n z).getLsbD 7 = n ∧ adcStatus p c v n z &&& 0x3C = p &&& 0x3C := by
  cases c <;> cases v <;> cases n <;> cases z <;> revert p <;> decide

/-- Everything `adcCommon` writes, at once: A and P, each from the old A, the old carry and the operand. -/
theorem adcCommon_eq (value : Byte) (s : State) :
    adcCommon value s =
      let result := adcResult s.A value (s.P.getLsbD 0)
      (s.setP (adcStatus s.P (adcCarry s.A value (s.P.getLsbD 0)) (adcOverflow s.A value result) (adcNegative result)
        (adcZeroFlag result))).setA result := by
  simp only [adcCommon, Status.carry_eq]
  rfl

@[simp] theorem adcCommon_A (value : Byte) (s : State) :
    (adcCommon value s).A = adcResult s.A value (s.P.getLsbD 0) := by
  rw [adcCommon_eq]; rfl

@[simp] theorem adcCommon_P (value : Byte) (s : State) :
    (adcCommon value s).P =
      let result := adcResult s.A value (s.P.getLsbD 0)
      adcStatus s.P (adcCarry s.A value (s.P.getLsbD 0)) (adcOverflow s.A value result) (adcNegative result)
        (adcZeroFlag result) := by
  rw [adcCommon_eq]; rfl

@[simp] theorem adcCommon_X (value : Byte) (s : State) : (adcCommon value s).X = s.X := rfl
@[simp] theorem adcCommon_Y (value : Byte) (s : State) : (adcCommon value s).Y = s.Y := rfl
@[simp] theorem adcCommon_PC (value : Byte) (s : State) : (adcCommon value s).PC = s.PC := rfl
@[simp] theorem adcCommon_mem (value : Byte) (s : State) : (adcCommon value s).mem = s.mem := rfl

@[simp] theorem adcResult_toNat (a value : Byte) (c : Bool) : (adcResult a value c).toNat = adcSum a value c % 256 := by
  simp [adcResult]

end Sys2Proof.Machine
end

