-- ==== Sys2Proof/Laws/Decode.lean ====
section
/-! SUPPORT. The opcode byte and its mode, operand assembly, and that a typed instruction is well-formed. -/

namespace Sys2Proof

open Machine

/-- The decoder's fields and the encoder's column name the same mode (30_encoding.md R49). -/
theorem modeOfOpcode_opcode (m : Mode) : modeOfOpcode m.opcode = some m := by
  cases m <;> decide

/-- A byte with a mode is that mode's opcode byte. -/
theorem opcode_of_modeOfOpcode {op : Byte} {m : Mode} (h : modeOfOpcode op = some m) : m.opcode = op := by
  revert op m
  decide +revert

/-- Assembly succeeds exactly on the right number of bytes (30_encoding.md R46; 00_scope.md R8). -/
theorem assemble_eq_none (m : Mode) (bs : List Byte) :
    assemble m bs = none ↔ bs.length ≠ m.format.operandBytes := by
  match bs with
  | [] | [_] | [_, _] | _ :: _ :: _ :: _ => cases m <;> simp [assemble, Mode.format, Format.operandBytes]

/-- Operand bytes come back as they were assembled, under the mode they were assembled for. -/
theorem operandBytes_of_assemble {m : Mode} {bs : List Byte} {i : Instr} (h : assemble m bs = some i) :
    i.mode = m ∧ i.operandBytes = bs := by
  match bs with
  | [] | [_] | [_, _] | _ :: _ :: _ :: _ =>
    cases m <;> simp [assemble] at h <;> subst h <;> simp [Instr.mode, Instr.operandBytes]

/-- Assembling an instruction's own operand bytes gives it back. -/
theorem assemble_operandBytes (i : Instr) : assemble i.mode i.operandBytes = some i := by
  cases i <;> simp [assemble, Instr.mode, Instr.operandBytes]

/-- An instruction has as many operand bytes as its format takes (R46). -/
theorem operandBytes_length (i : Instr) : i.operandBytes.length = i.mode.format.operandBytes := by
  cases i <;> rfl

/-- Every typed instruction is well-formed: its operand cannot be mis-sized (00_scope.md R8). -/
theorem Instr.wellFormed_all (i : Instr) : i.wellFormed = true := by
  cases i with
  | adcImm v | adcZero v | adcZeroX v | adcIndX v | adcIndY v => exact decide_eq_true v.isLt
  | adcAbs a | adcAbsX a | adcAbsY a => exact decide_eq_true a.isLt

end Sys2Proof
end

