-- ==== Sys2Proof/Laws/Interface.lean ====
section
/-! SUPPORT. What one operation and one host interaction can do to memory, and runs of interactions cut in two. -/

namespace Sys2Proof.Machine

/-- Every exposed operation keeps memory canonical; only `write` touches it (30_encoding.md R45). -/
theorem invoke_wf (op : Operation) {s : State} (h : s.mem.wf = true) : (invoke op s).2.mem.wf = true := by
  cases op with
  | write a v => exact State.memWrite_wf h
  | _ => exact h

/-- Every host interaction keeps memory canonical (60_exceptions.md R107). -/
theorem hostAct_wf (k : HostAction) {s : State} (h : s.mem.wf = true) : (hostAct k s).2.mem.wf = true := by
  cases k with
  | writeReg r v => cases r <;> exact h
  | writeMem a v => exact State.memWrite_wf h
  | invoke op => exact invoke_wf op h
  | _ => exact h

/-- A run of two lists is the second run from where the first ends (70_reset_and_hazards.md R123). -/
theorem hostRun_append (hs ks : List HostAction) (s : State) :
    (hostRun (hs ++ ks) s).2 = (hostRun ks (hostRun hs s).2).2 := by
  induction hs generalizing s with
  | nil => rfl
  | cons h hs ih => simp [hostRun, ih]

end Sys2Proof.Machine
end

