-- ==== Sys2Proof/Laws/PerInstr.lean ====
section
/-! SUPPORT. Statements for all instructions, one lemma per constructor.
EncodingShape: an instruction's bytes are its mode's opcode byte and as many operand bytes as its format takes, so their number is
the instruction's length (30_encoding.md R46, R49, R59); and its operand is well-formed (00_scope.md R8). -/

namespace Sys2Proof.Laws.EncodingShape

def Statement (i : Instr) : Prop :=
  (encode i).head? = some i.mode.opcode ∧ modeOfOpcode i.mode.opcode = some i.mode ∧
    (encode i).length = i.length ∧ i.wellFormed = true

/-- The shape follows from the operand's length alone. -/
theorem of_instr (i : Instr) : Statement i := by
  refine ⟨rfl, modeOfOpcode_opcode _, ?_, Instr.wellFormed_all i⟩
  simp [encode, Instr.length, Mode.length, operandBytes_length, Nat.add_comm]

theorem adcImm (value : Byte) : Statement (.adcImm value) := of_instr _
theorem adcZero (address : Byte) : Statement (.adcZero address) := of_instr _
theorem adcZeroX (address : Byte) : Statement (.adcZeroX address) := of_instr _
theorem adcAbs (address : Word) : Statement (.adcAbs address) := of_instr _
theorem adcAbsX (address : Word) : Statement (.adcAbsX address) := of_instr _
theorem adcAbsY (address : Word) : Statement (.adcAbsY address) := of_instr _
theorem adcIndX (address : Byte) : Statement (.adcIndX address) := of_instr _
theorem adcIndY (address : Byte) : Statement (.adcIndY address) := of_instr _

end Sys2Proof.Laws.EncodingShape
end

