-- ==== Sys2Proof/Laws/Step.lean ====
section
/-! SUPPORT. What an instruction and a step can do, said once. -/

namespace Sys2Proof.Machine

/-- Every instruction resolves its operand, performs the common operation on it, and completes (41_adc.md R80). -/
theorem exec_eq (i : Instr) (s : State) : exec i s = .next (adcCommon (operandBus i s).value s) := by
  cases i <;> rfl

/-- An instruction's one next state. -/
theorem exec_next {i : Instr} {s t : State} (h : exec i s = .next t) : t = adcCommon (operandBus i s).value s := by
  rw [exec_eq] at h
  cases h
  rfl

/-- The bytes fetched for an opcode with a mode. -/
theorem fetchBytes_of_mode {s : State} {m : Mode} (h : modeOfOpcode (s.memRead s.PC) = some m) :
    fetchBytes s = s.memRead s.PC :: s.mem.readBytes (s.PC + 1) m.format.operandBytes := by
  simp only [fetchBytes, fetchLength, h, Mode.length, Nat.add_comm 1]
  rfl

theorem Memory.readBytes_length (m : Memory) (a : Word) (n : Nat) : (m.readBytes a n).length = n := by
  induction n generalizing a with
  | zero => rfl
  | succ n ih => simp [Memory.readBytes, ih]

/-- A refused opcode byte refuses the fetch (30_encoding.md R54). -/
theorem fetch_of_refused {s : State} (h : modeOfOpcode (s.memRead s.PC) = none) :
    fetch s = .error (.refusedOpcode (s.memRead s.PC)) := by
  have hb : fetchBytes s = [s.memRead s.PC] := by simp only [fetchBytes, fetchLength, h]; rfl
  simp only [fetch, hb, decode, h]

/-- An opcode byte of the table always fetches: memory has the operand bytes (30_encoding.md R55; 20_memory.md R31). -/
theorem fetch_of_mode {s : State} {m : Mode} (h : modeOfOpcode (s.memRead s.PC) = some m) :
    ∃ i, fetch s = .ok i ∧ i.mode = m ∧ assemble m (s.mem.readBytes (s.PC + 1) m.format.operandBytes) = some i := by
  have hl := Memory.readBytes_length s.mem (s.PC + 1) m.format.operandBytes
  cases ha : assemble m (s.mem.readBytes (s.PC + 1) m.format.operandBytes) with
  | none => exact absurd hl ((assemble_eq_none _ _).1 ha)
  | some i =>
    have ht := List.take_of_length_le hl.le
    refine ⟨i, ?_, (operandBytes_of_assemble ha).1, rfl⟩
    simp only [fetch, fetchBytes_of_mode h, decode, h, ht, ha]

/-- All a step can do: refuse the byte at PC, or run the fetched instruction with PC moved past it (30_encoding.md R57). -/
theorem step_cases (s : State) :
    (modeOfOpcode (s.memRead s.PC) = none ∧ step s = .refused (.refusedOpcode s.PC (s.memRead s.PC))) ∨
    ∃ m i, modeOfOpcode (s.memRead s.PC) = some m ∧ i.mode = m ∧
      assemble m (s.mem.readBytes (s.PC + 1) m.format.operandBytes) = some i ∧ step s = exec i (s.advancePC m.length) := by
  cases h : modeOfOpcode (s.memRead s.PC) with
  | none => exact .inl ⟨rfl, by simp only [step, fetch_of_refused h]⟩
  | some m =>
    obtain ⟨i, hf, hm, ha⟩ := fetch_of_mode h
    exact .inr ⟨m, i, rfl, hm, ha, by simp only [step, hf, Instr.length, hm]⟩

/-- A step that answers a next state ran one instruction after moving PC past it. -/
theorem step_next {s t : State} (h : step s = .next t) :
    ∃ i, modeOfOpcode (s.memRead s.PC) = some i.mode ∧
      t = adcCommon (operandBus i (s.advancePC i.length)).value (s.advancePC i.length) := by
  obtain ⟨_, hr⟩ | ⟨m, i, hm, him, _, hs⟩ := step_cases s
  · rw [hr] at h; cases h
  · subst him
    exact ⟨i, hm, exec_next (hs ▸ h)⟩

end Sys2Proof.Machine
end

