-- ==== Sys2Proof/Machine/Listing.lean ====
section
/-! DEFINITION. The assembler spelling of an instruction (30_encoding.md R51), as a list of characters. From general knowledge in the
spec and illustrative: no meaning rests on it (92_eei_decisions.md D18). `$` marks a hexadecimal number; zero-page operands have two
digits and absolute operands four. -/

namespace Sys2Proof.Machine

/-- One hexadecimal digit. -/
def hexDigit (d : BitVec 4) : Char := ("0123456789ABCDEF".toList.getD d.toNat '0')

/-- A byte in two digits, high digit first. -/
def hexByte (b : Byte) : List Char := [hexDigit (b.extractLsb' 4 4), hexDigit (b.extractLsb' 0 4)]

/-- A word in four digits, high byte first. -/
def hexWord (w : Word) : List Char := hexByte (hi8 w) ++ hexByte (lo8 w)

/-- The listing's line for an instruction (R51). -/
def listing (i : Instr) : List Char :=
  match i with
  | .adcImm v => "ADC #$".toList ++ hexByte v
  | .adcZero a => "ADC $".toList ++ hexByte a
  | .adcZeroX a => "ADC $".toList ++ hexByte a ++ ",X".toList
  | .adcAbs a => "ADC $".toList ++ hexWord a
  | .adcAbsX a => "ADC $".toList ++ hexWord a ++ ",X".toList
  | .adcAbsY a => "ADC $".toList ++ hexWord a ++ ",Y".toList
  | .adcIndX a => "ADC ($".toList ++ hexByte a ++ ",X)".toList
  | .adcIndY a => "ADC ($".toList ++ hexByte a ++ "),Y".toList

end Sys2Proof.Machine
end

