-- ==== Sys2Proof/Tests/Slice0.lean ====
section
/-! SUPPORT. Tests of the model, expected values from 95_test_vectors.md and the rules' own examples; and for each statement with
hypotheses a concrete state and operands that meet them. -/

namespace Sys2Proof.Tests

open Sys2Proof Sys2Proof.Machine Sys2Proof.Claims

/-- A state for tests. -/
def st (a x y p : Byte) (pc : Word) (m : Memory) : Machine.State := { A := a, X := x, Y := y, P := p, PC := pc, mem := m }

/-- The next state an outcome holds. -/
def nextOf : Result → Option Machine.State
  | .next s => some s
  | .fault f => nomatch f
  | .refused _ => none

/-- The refusal an outcome holds. -/
def refusalOf : Result → Option Refusal
  | .next _ => none
  | .fault f => nomatch f
  | .refused r => some r

/-- A and P of the next state, the fields the vectors give. -/
def ap (o : Result) : Option (Byte × Byte) := (nextOf o).map fun s => (s.A, s.P)

/-- The instruction and the bytes left, for comparison. -/
def decoded (bs : List Byte) : Option (Instr × List Byte) :=
  match decode bs with
  | .ok r => some r
  | .error _ => none

/-! ### Well-formedness: each check refuses an ill-formed call (30_encoding.md R46) -/

theorem test_wf_immediate_without_operand : (RawCall.mk .immediate []).wellFormed = false := by decide
theorem test_wf_immediate_two_bytes : (RawCall.mk .immediate [0x01, 0x02]).wellFormed = false := by decide
theorem test_wf_zeroPage_two_bytes : (RawCall.mk .zeroPage [0x01, 0x02]).wellFormed = false := by decide
theorem test_wf_absolute_one_byte : (RawCall.mk .absolute [0x34]).wellFormed = false := by decide
theorem test_wf_absolute_three_bytes : (RawCall.mk .absolute [0x34, 0x12, 0x00]).wellFormed = false := by decide
theorem test_wf_good_calls : (RawCall.mk .indirectY [0x40]).wellFormed = true ∧ (RawCall.mk .absoluteX [0x34, 0x12]).wellFormed = true := by decide

/-! ### Decoding: words written bit by bit from the encodings of spec/opcode_table.json -/

theorem test_decode_adcImm : decoded [0b01101001, 0b00000101] = some (.adcImm 0x05, []) := by decide
theorem test_decode_adcZero : decoded [0b01100101, 0b10101010] = some (.adcZero 0xAA, []) := by decide
theorem test_decode_adcZeroX : decoded [0b01110101, 0b11110000] = some (.adcZeroX 0xF0, []) := by decide
theorem test_decode_adcAbs : decoded [0b01101101, 0b00110100, 0b00010010] = some (.adcAbs 0x1234, []) := by decide
theorem test_decode_adcAbsX : decoded [0b01111101, 0b11111111, 0b00000001] = some (.adcAbsX 0x01FF, []) := by decide
theorem test_decode_adcAbsY : decoded [0b01111001, 0b11110000, 0b00010010] = some (.adcAbsY 0x12F0, []) := by decide
theorem test_decode_adcIndX : decoded [0b01100001, 0b11111110] = some (.adcIndX 0xFE, []) := by decide
theorem test_decode_adcIndY : decoded [0b01110001, 0b11111111] = some (.adcIndY 0xFF, []) := by decide
theorem test_decode_refuses : decoded [0x00] = none ∧ decoded [0xEA] = none ∧ decoded [0xE9, 0x10] = none ∧ decoded [] = none ∧
    decoded [0x6D, 0x34] = none := by decide
theorem test_table_word : decodeTableWord 16 0x0569 = some (.adcImm 0x05) ∧ decodeTableWord 24 0x12346D = some (.adcAbs 0x1234) ∧
    decodeTableWord 8 0x71 = some (.adcIndY 0x00) ∧ decodeTableWord 8 0x1269 = some (.adcImm 0x00) ∧ decodeTableWord 8 0xEA = none := by decide

/-! ### Status register and register file (95_test_vectors.md 2.1, 2.2) -/

theorem test_flags_not : FlagSet.not 0x00 = 0xFF ∧ FlagSet.not 0x30 = 0xCF ∧ FlagSet.xor 0xFF 0x30 = 0xCF := by decide
theorem test_flags_test : FlagSet.test 0x10 maskB = false ∧ FlagSet.test 0x30 maskB = true ∧ FlagSet.test 0x01 0x81 = false ∧
    FlagSet.test 0x81 0x81 = true := by decide
theorem test_flags_set : FlagSet.set 0x00 maskC true = 0x01 ∧ FlagSet.set 0xFF maskZ false = 0xFD ∧ FlagSet.set 0x00 maskB true = 0x30 ∧
    FlagSet.set 0x3F maskB false = 0x0F := by decide
theorem test_flags_equal : FlagSet.equal 0x10 0x20 = false := by decide
theorem test_construct : invoke .construct (st 0x12 0x34 0x56 0xFF 0xBEEF [(0x0000, 0x99)]) = (.unit, st 0 0 0 0 0 [(0x0000, 0x99)]) := by decide
theorem test_reset : (st 0x12 0x34 0x56 0xFF 0xBEEF [(0x0000, 0x99)]).resetRegisters = st 0 0 0 0 0 [(0x0000, 0x99)] := by decide

/-! ### Address-mode resolver (95_test_vectors.md S4 to S7, 2.3) -/

theorem test_absIdx : absIdx 0x12F0 0x20 = 0x1310 ∧ absIdx 0xFFFF 0x01 = 0x0000 ∧ absIdx 0xFF80 0xFF = 0x007F := by decide
theorem test_zeroIdx : zeroIdx 0xF0 0x20 = 0x0010 ∧ zeroIdx 0xFF 0xFF = 0x00FE ∧ zeroIdx 0x80 0x80 = 0x0000 := by decide
theorem test_absIndirect_same_page : absIndirect [(0xFF01, 0xAB), (0xFF02, 0xCD)] 0xFF01 = 0xCDAB := by decide
theorem test_absIndirect_page_wrap : absIndirect [(0xAB00, 0x12), (0xABFF, 0x34), (0xAC00, 0x77)] 0xABFF = 0x1234 := by decide
theorem test_absIndirect_last_page : absIndirect [(0x0000, 0x33), (0xFF00, 0x22), (0xFFFF, 0x11)] 0xFFFF = 0x2211 := by decide
theorem test_absIndirect_last_step_in_page : absIndirect [(0x10FE, 0xCD), (0x10FF, 0xAB)] 0x10FE = 0xABCD := by decide
theorem test_indirectX : indirectX [(0x00, 0x12), (0xFF, 0x34)] 0xFF 0x00 = 0x1234 ∧
    indirectX [(0x10, 0x34), (0x11, 0x12)] 0x80 0x90 = 0x1234 := by decide
theorem test_indirectY : indirectY [(0x00, 0x12), (0xFF, 0x34)] 0xFF 0x21 = 0x1255 ∧
    indirectY [(0x10, 0x01), (0x11, 0x20)] 0x10 0xFF = 0x2100 ∧ indirectY [(0x20, 0x80), (0x21, 0xFF)] 0x20 0x80 = 0x0000 := by decide

/-! ### The common operation (95_test_vectors.md S8 to S10, 2.4) -/

theorem test_adc_zero : ap (.next (adcCommon 0x00 (st 0x00 0 0 0x00 0 []))) = some (0x00, 0x02) := by decide
theorem test_adc_overflow : ap (.next (adcCommon 0x01 (st 0x7F 0 0 0x00 0 []))) = some (0x80, 0xC0) := by decide
theorem test_adc_carry_overflow : ap (.next (adcCommon 0x80 (st 0x81 0 0 0x00 0 []))) = some (0x01, 0x41) := by decide
theorem test_adc_carry_in : ap (.next (adcCommon 0x3F (st 0xC0 0 0 0x01 0 []))) = some (0x00, 0x03) := by decide
theorem test_adc_decimal_ignored : ap (.next (adcCommon 0x01 (st 0x09 0 0 0x3D 0 []))) = some (0x0B, 0x3C) := by decide

/-! ### The variants (95_test_vectors.md 2.5) -/

theorem test_adcImm : ap (exec (.adcImm 0x20) (st 0x10 0 0 0x01 0 [])) = some (0x31, 0x00) := by decide
theorem test_adcZero : ap (exec (.adcZero 0xAA) (st 0xF0 0 0 0 0 [(0xAA, 0x0F)])) = some (0xFF, 0x80) := by decide
theorem test_adcZeroX : ap (exec (.adcZeroX 0xF0) (st 0x01 0x20 0 0 0 [(0x10, 0xFF)])) = some (0x00, 0x03) := by decide
theorem test_adcAbs : ap (exec (.adcAbs 0x1234) (st 0x40 0 0 0 0 [(0x1234, 0x40)])) = some (0x80, 0xC0) := by decide
theorem test_adcAbsX : ap (exec (.adcAbsX 0xFFFF) (st 0x80 0x01 0 0 0 [(0x0000, 0x80)])) = some (0x00, 0x43) := by decide
theorem test_adcAbsY : ap (exec (.adcAbsY 0x12F0) (st 0x05 0 0x20 0x01 0 [(0x1310, 0x0A)])) = some (0x10, 0x00) := by decide
theorem test_adcIndX : ap (exec (.adcIndX 0xA0) (st 0xF0 0x0B 0 0 0 [(0xAB, 0xCD), (0xAC, 0xAB), (0xABCD, 0x0F)])) = some (0xFF, 0x80) := by decide
theorem test_adcIndY : ap (exec (.adcIndY 0xFF) (st 0x00 0 0x21 0x01 0 [(0x00, 0x12), (0xFF, 0x34), (0x1255, 0x7F)])) = some (0x80, 0xC0) := by decide

/-! ### Memory and the harness (95_test_vectors.md 2.6, P3) -/

theorem test_write_zero_unlists : Memory.write [(0x10, 0x05), (0x20, 0x06)] 0x10 0x00 = [(0x20, 0x06)] ∧
    Memory.write [(0x10, 0x05), (0x20, 0x06)] 0x18 0x07 = [(0x10, 0x05), (0x18, 0x07), (0x20, 0x06)] := by decide
/-- An instruction across the top of memory. -/
def wrapped : Machine.State := st 0x01 0 0 0 0xFFFF [(0x0000, 0x34), (0x0001, 0x12), (0x1234, 0x7F), (0xFFFF, 0x6D)]
theorem test_step_wraps : nextOf (step wrapped) = some { wrapped with A := 0x80, P := 0xC0, PC := 0x0002 } := by decide
theorem test_step_refuses : refusalOf (step (st 0 0 0 0 0x0200 [(0x0200, 0xEA)])) = some (.refusedOpcode 0x0200 0xEA) := by decide
theorem test_step_reads : (stepBus (st 0x10 0x01 0xF0 0 0x0400 [(0x0000, 0x20), (0x00FF, 0x01), (0x0400, 0x61), (0x0401, 0xFE)])).reads =
    [0x0400, 0x0401, 0x00FF, 0x0000, 0x2001] := by decide
theorem test_fetch_word_runs_after_reset : ap (step (State.reset.withFetchWord 16 0x8069)) = some (0x80, 0x80) := by decide
theorem test_run_reads : harnessReads 2 (st 0xFF 0 0 0 0x0200 [(0x0200, 0x69), (0x0201, 0x01)]) = [0x0200, 0x0201, 0x0202] := by decide
theorem test_run_ends_normally : EndsNormally 2 (st 0xFF 0 0 0 0x0200 [(0x0200, 0x69), (0x0201, 0x01)]) 0x0202 := rfl

/-! ### Listings (95_test_vectors.md P1 to P3) -/

theorem test_listing : listing (.adcImm 0x01) = "ADC #$01".toList ∧ listing (.adcAbsY 0x1234) = "ADC $1234,Y".toList ∧
    listing (.adcIndX 0xFE) = "ADC ($FE,X)".toList ∧ listing (.adcIndY 0xFF) = "ADC ($FF),Y".toList := by decide

/-! ### Witnesses: for each statement with hypotheses, a state and operands that meet them -/

/-- A state whose byte at PC is an ADC zero-page. -/
def w : Machine.State := st 0xF0 0x0B 0x21 0x3D 0x0200 [(0x00AA, 0x0F), (0x0200, 0x65), (0x0201, 0xAA)]
/-- The same with one more byte, where no step from `w` reads. -/
def w' : Machine.State := { w with mem := [(0x00AA, 0x0F), (0x0200, 0x65), (0x0201, 0xAA), (0x4000, 0x99)] }

theorem witness_StepKeepsCanonicalMemoryAndInertState : CanonicalMemory w ∧ ∃ t, step w = .next t := ⟨rfl, _, rfl⟩
theorem witness_HostRunKeepsCanonicalMemory : CanonicalMemory w := rfl
theorem witness_StatusByteRoundTrips :
    ∀ h ∈ [HostAction.readReg .P, .writeReg .X 0x01, .writeMem 0x0000 0xFF, .invoke (.flagsNot 0x00), .invoke (.write 0x0001 0x02)],
      leavesStatus h = true := by decide
theorem witness_WriteStoresOneByteAndNothingElse : CanonicalMemory w ∧ (0x00AB : Word) ≠ 0x00AA ∧ ∃ t, exec (.adcZero 0xAA) w = .next t :=
  ⟨rfl, by decide, _, rfl⟩
theorem witness_WriteStoresOneByteAndNothingElse_other_operations :
    ∀ op ∈ [Operation.read 0xFFFF, .flagsNot 0x00, .construct, .reset, .adcCommon 0x01, .absIndirect 0xFFFF], ∀ a v, op ≠ .write a v := by
  simp
theorem witness_CanonicalMemoriesReadingAlikeAreEqual :
    CanonicalMemory w ∧ CanonicalMemory (w.setA 0x01) ∧ ∀ a, w.memRead a = (w.setA 0x01).memRead a := ⟨rfl, rfl, fun _ => rfl⟩
theorem witness_ReadReturnsTheLastWrite : CanonicalMemory w := rfl
theorem witness_AddressingFunctionsDependOnMemoryAlone : w.mem = (w.setA 0x01).mem ∧
    (∃ a i, Operation.absIdx 0xFFFF 0xFF = .absIdx a i) ∧ (∃ a i, Operation.zeroIdx 0xFF 0xFF = .zeroIdx a i) ∧
    (∃ a, Operation.absIndirect 0xFFFF = .absIndirect a) ∧ (∃ a x, Operation.indirectX 0xFF 0xFF = .indirectX a x) ∧
    ∃ a y, Operation.indirectY 0xFF 0xFF = .indirectY a y := ⟨rfl, ⟨_, _, rfl⟩, ⟨_, _, rfl⟩, ⟨_, rfl⟩, ⟨_, _, rfl⟩, ⟨_, _, rfl⟩⟩
theorem witness_AbsoluteIndirect_both_branches : (0x02FF : Word).toNat % 256 = 255 ∧ (0xFFFF : Word).toNat % 256 = 255 ∧
    ¬(0x10FE : Word).toNat % 256 = 255 := by decide
theorem witness_AbsoluteIndirectReadsOnePage : (0xAB00 : Word) ∈ (absIndirectBus w.mem 0xABFF).reads := by decide
theorem witness_ZeroPageReadsStayBelow256 : (0x00FF : Word) ∈ (operandBus (.adcZero 0xFF) w).reads ∧
    (0x000A : Word) ∈ (operandBus (.adcZeroX 0xFF) w).reads ∧ (0x00FF : Word) ∈ (operandBus (.adcIndX 0xF4) w).reads.take 2 ∧
    (0x0000 : Word) ∈ (operandBus (.adcIndY 0xFF) w).reads.take 2 := by decide
theorem witness_AdcDependsOnAccumulatorCarryAndOperandAlone :
    w.A = (w.setP 0x01).A ∧ w.P.getLsbD 0 = (w.setP 0x01).P.getLsbD 0 ∧ w ≠ w.setP 0x01 := by decide
theorem witness_AdcFrame : ∃ t, exec (.adcIndY 0xFF) w = .next t := ⟨_, rfl⟩
theorem witness_OpcodeTableIsTheEightRows : (0x00 : Byte) ∉ adcOpcodes ∧ (0xFF : Byte) ∉ adcOpcodes ∧ (0x60 : Byte) ∉ adcOpcodes := by decide
theorem witness_MisSizedOperandIsNoInstruction : (RawCall.mk .absolute [0x34]).wellFormed = false ∧
    assemble .absolute [0x34, 0x12] = some (.adcAbs 0x1234) := by decide
theorem witness_DecodeOfEncodeIsTheInstruction : (Instr.adcAbsY 0xFFFF).wellFormed = true ∧ (Instr.adcImm 0xFF).wellFormed = true := by decide
theorem witness_EncodeOfDecodeIsTheBytes : decode [0x7D, 0x34, 0x12, 0x99] = .ok (.adcAbsX 0x1234, [0x99]) := rfl
theorem witness_StepRunsTheDecodedInstruction : decode (wrapped.mem.readBytes wrapped.PC 3) = .ok (.adcAbs 0x1234, []) := rfl
theorem witness_HarnessStepFollowsThePseudocode_refused : State.reset.memRead State.reset.PC ∉ adcOpcodes := by decide
theorem witness_HarnessStepFollowsThePseudocode : ∀ op, (st 0 0 0 0 0xFFFF [(0xFFFF, op)]).memRead 0xFFFF = op := fun _ => rfl
theorem witness_StepAdvancesPcByTheLength : (∃ t, step wrapped = .next t) ∧ ∃ t, exec (.adcImm 0x01) wrapped = .next t := ⟨⟨_, rfl⟩, _, rfl⟩
theorem witness_UnknownOpcodeEndsTheRunUnchanged : State.reset.memRead State.reset.PC ∉ adcOpcodes ∧ w.memRead w.PC ∈ adcOpcodes := by decide
theorem witness_RefusedRunIsFinal : ∃ t r, harnessRun 2 w = .refused t r ∧ 2 ≤ 3 := ⟨_, _, rfl, by decide⟩
theorem witness_PlacedInstructionIsTheOneThatRuns : CanonicalMemory wrapped ∧
    ∀ k, k < (Instr.adcAbs 0x1234).length → (0x0002 : Word) ≠ wrapped.PC + BitVec.ofNat 16 k := ⟨rfl, by decide⟩
theorem witness_FetchWordRunsAsItsTableWordDecodes : CanonicalMemory wrapped ∧ decodeTableWord 24 0x12346D = some (.adcAbs 0x1234) := ⟨rfl, by decide⟩
theorem witness_BusReadsAreTheTableRows : (∃ t, exec (.adcIndX 0xA0) w = .next t) ∧
    (∃ rest, decode (w.mem.readBytes w.PC 3) = .ok (.adcZero 0xAA, rest)) ∧
    decode (wrapped.mem.readBytes wrapped.PC 3) = .ok (.adcAbs 0x1234, []) := ⟨⟨_, rfl⟩, ⟨_, rfl⟩, rfl⟩
theorem test_step_reads_w : (stepBus w).reads = [0x0200, 0x0201, 0x00AA] := by decide
theorem witness_StepDependsOnlyOnTheBytesItReads :
    w.toRegisters = w'.toRegisters ∧ (∀ a ∈ (stepBus w).reads, w.memRead a = w'.memRead a) ∧ w.mem ≠ w'.mem := by
  rw [test_step_reads_w]
  simp only [List.forall_mem_cons]
  exact ⟨rfl, ⟨rfl, rfl, rfl, by simp⟩, by simp [w, w', st]⟩
theorem witness_HostInteractionsWriteOnlyTheirTarget : CanonicalMemory w := rfl
theorem witness_RestoredStateIsTheSavedState : CanonicalMemory w ∧ CanonicalMemory wrapped ∧ w ≠ wrapped := ⟨rfl, rfl, by decide⟩

end Sys2Proof.Tests
end

section
/-! PROOFS. The register file after reset and the flag-set operations (10_state.md R23, R25, R26, R29). -/

namespace Sys2Proof.Machine

/-! ### The register-file reset as a whole -/

@[simp] theorem State.resetRegisters_toRegisters (s : State) : s.resetRegisters.toRegisters = Registers.construct := rfl

@[simp] theorem invoke_reset (s : State) : invoke .reset s = (.unit, s.resetRegisters) := rfl
@[simp] theorem hostAct_reset (s : State) : hostAct .reset s = (.unit, s.resetRegisters) := rfl

theorem Registers.construct_P : Registers.construct.P = FlagSet.empty := rfl

/-! ### The flag-set operations, bit by bit -/

@[simp] theorem FlagSet.getLsbD_empty (i : Nat) : FlagSet.empty.getLsbD i = false := BitVec.getLsbD_zero

/-- The test reads "the flags of `m` are a subset of those of `p`": masking `p` with `m` loses no bit of `m` (R25). -/
theorem FlagSet.test_eq_true_iff (p m : Byte) :
    FlagSet.test p m = true ↔ ∀ i : Fin 8, m.getLsbD i = true → p.getLsbD i = true := by
  rw [FlagSet.test, beq_iff_eq]
  constructor
  · intro h i hm
    have hboth : (p &&& m).getLsbD i = true := by rw [h, hm]
    rw [BitVec.getLsbD_and, Bool.and_eq_true] at hboth
    exact hboth.1
  · intro h
    apply BitVec.eq_of_getLsbD_eq
    intro i hi
    rw [BitVec.getLsbD_and]
    cases hm : m.getLsbD i with
    | false => exact Bool.and_false _
    | true => rw [h ⟨i, hi⟩ hm, Bool.and_true]

/-- A subset with no flag asks for nothing. -/
@[simp] theorem FlagSet.test_empty (p : Byte) : FlagSet.test p FlagSet.empty = true :=
  (FlagSet.test_eq_true_iff p _).2 fun i hi => by rw [FlagSet.getLsbD_empty] at hi; contradiction

/-- The one flag of the mask `1 <<< i` is bit `i` (R14). -/
theorem getLsbD_oneBitMask (i j : Fin 8) : ((1 <<< i.val : Nat) : Byte).getLsbD j = true ↔ j = i := by
  revert i j; decide

/-- For a one-bit flag the test is the bit (R25). -/
theorem FlagSet.test_oneBitMask (p : Byte) (i : Fin 8) :
    FlagSet.test p ((1 <<< i.val : Nat) : Byte) = p.getLsbD i := by
  rw [Bool.eq_iff_iff, FlagSet.test_eq_true_iff]
  simp only [getLsbD_oneBitMask, forall_eq]

/-- The flag B has the bits 4 and 5 and no others (R20). -/
theorem getLsbD_maskB (i : Fin 8) : maskB.getLsbD i = true ↔ i = 4 ∨ i = 5 := by
  revert i; decide

/-- For B the test asks for both bits (R25). -/
theorem FlagSet.test_maskB (p : Byte) :
    FlagSet.test p maskB = true ↔ p.getLsbD 4 = true ∧ p.getLsbD 5 = true := by
  rw [FlagSet.test_eq_true_iff]
  simp only [getLsbD_maskB, forall_eq_or_imp, forall_eq]
  rfl

/-- The complement of a mask, as R26 writes it, has the other flags. -/
theorem getLsbD_maskComplement (m : Byte) (i : Fin 8) : (0xFF ^^^ m).getLsbD i = !m.getLsbD i := by
  have hones : (0xFF : Byte).getLsbD i = true := by revert i; decide
  rw [BitVec.getLsbD_xor, hones, Bool.true_xor]

/-- Setting by a condition: the flags of `m` take it, every other bit stays (R26). -/
theorem FlagSet.getLsbD_set (p m : Byte) (c : Bool) (i : Fin 8) :
    (FlagSet.set p m c).getLsbD i = if m.getLsbD i then c else p.getLsbD i := by
  cases c with
  | true =>
    change (p ||| m).getLsbD i = _
    rw [BitVec.getLsbD_or]
    cases m.getLsbD i <;> simp
  | false =>
    change (p &&& (0xFF ^^^ m)).getLsbD i = _
    rw [BitVec.getLsbD_and, getLsbD_maskComplement]
    cases m.getLsbD i <;> simp

end Sys2Proof.Machine

namespace Sys2Proof.Proofs

open Sys2Proof.Machine

/-- Settles O2: both routes to a reset answer the state with the constructed register file and the old memory. -/
theorem resetZeroesRegistersAndKeepsMemory : Obligations.ResetZeroesRegistersAndKeepsMemory := by
  intro s
  exact ⟨s.resetRegisters, hostAct_reset s, invoke_reset s, State.resetRegisters_A s, State.resetRegisters_X s,
    State.resetRegisters_Y s, State.resetRegisters_P s, State.resetRegisters_PC s, State.resetRegisters_toRegisters s,
    State.resetRegisters_mem s⟩

/-- Settles O10: the empty flag set bit by bit, and as P of the constructed register file that reset puts in place. -/
theorem emptyFlagSetIsTheStatusAfterReset : Obligations.EmptyFlagSetIsTheStatusAfterReset := by
  refine ⟨fun i => FlagSet.getLsbD_empty i, rfl, fun _ => rfl, Registers.construct_P, fun s => ?_⟩
  rw [invoke_reset, State.resetRegisters_toRegisters, Registers.construct_P]

/-- Settles O12: the subset reading of the test, and its cases for no flag, for B and for a one-bit flag. -/
theorem flagTestHoldsIffEveryFlagIsSet : Obligations.FlagTestHoldsIffEveryFlagIsSet := by
  intro p m s
  exact ⟨⟨FlagSet.test p m, rfl, rfl, FlagSet.test_eq_true_iff p m⟩, FlagSet.test_empty p, FlagSet.test_maskB p,
    FlagSet.test_oneBitMask p⟩

/-- Settles O13: the operation answers `FlagSet.set`, read bit by bit, and a flag write is that operation on P. -/
theorem flagSetWritesExactlyTheMaskedFlags : Obligations.FlagSetWritesExactlyTheMaskedFlags := by
  intro p m c s
  exact ⟨FlagSet.set p m c, rfl, rfl, FlagSet.getLsbD_set p m c, rfl⟩

end Sys2Proof.Proofs
end

section
/-! PROOFS. What writes memory and what does not (20_memory.md R32, R33). -/

namespace Sys2Proof.Machine

@[simp] theorem State.memWrite_toRegisters (s : State) (a : Word) (v : Byte) :
    (s.memWrite a v).toRegisters = s.toRegisters := rfl

@[simp] theorem invoke_write (a : Word) (v : Byte) (s : State) : invoke (.write a v) s = (.unit, s.memWrite a v) := rfl

/-- An instruction is the common operation on its operand (41_adc.md R80), and that writes A and P only. -/
theorem exec_mem {i : Instr} {s t : State} (h : exec i s = .next t) : t.mem = s.mem := by
  rw [exec_next h, adcCommon_mem]

/-- Of the exposed operations `write` alone changes memory: an add is `adcCommon` of its operand, `construct` and `reset` replace
the register file, and every other operation answers in the state it was invoked in (30_encoding.md R45). -/
theorem invoke_mem_of_ne_write {op : Operation} (s : State) (h : ∀ a v, op ≠ .write a v) : (invoke op s).2.mem = s.mem := by
  cases op with
  | write a v => exact absurd rfl (h a v)
  | adcCommon _ | adcImm _ | adcZero _ | adcZeroX _ | adcAbs _ | adcAbsX _ | adcAbsY _ | adcIndX _ | adcIndY _ =>
    exact adcCommon_mem _ s
  | construct => exact State.setRegisters_mem s Registers.construct
  | reset => exact State.resetRegisters_mem s
  | _ => rfl

end Sys2Proof.Machine

namespace Sys2Proof.Proofs

open Sys2Proof.Machine

/-- Settles O14: the bus write read back at its address and at every other, and that nothing but it writes memory. -/
theorem writeStoresOneByteAndNothingElse : Obligations.WriteStoresOneByteAndNothingElse := by
  refine ⟨fun s a v hwf => ?write, fun _ _ _ => exec_mem, fun _ s => invoke_mem_of_ne_write s, fun _ => ?addressing⟩
  case write =>
    refine ⟨s.memWrite a v, invoke_write a v s, ?_, fun b hb => ?_, State.memWrite_toRegisters s a v⟩
    · rw [State.memRead_memWrite hwf, if_pos rfl]
    · rw [State.memRead_memWrite hwf, if_neg hb]
  case addressing =>
    exact ⟨fun _ _ => rfl, fun _ _ => rfl, fun _ => rfl, fun _ _ => rfl, fun _ _ => rfl⟩

end Sys2Proof.Proofs
end

section
/-! PROOFS. Operand assembly and the PC advance of a step (30_encoding.md R47, R56). -/

namespace Sys2Proof

/-- An instruction takes two or three bytes of the stream (R46). -/
theorem Mode.length_eq_two_or_three (m : Mode) : m.length = 2 ∨ m.length = 3 := by
  cases m with
  | immediate | zeroPage | zeroPageX | indirectX | indirectY => exact .inl rfl
  | absolute | absoluteX | absoluteY => exact .inr rfl

end Sys2Proof

namespace Sys2Proof.Machine

/-- The PC advance as a number: it wraps at the top of memory (R56). -/
theorem State.advancePC_PC_toNat (s : State) (n : Nat) : (s.advancePC n).PC.toNat = (s.PC.toNat + n) % 65536 := by
  rw [State.advancePC_PC, BitVec.toNat_add, BitVec.toNat_ofNat, Nat.add_mod_mod]

/-- A step that answers a next state leaves PC past the instruction that it ran (R56). -/
theorem step_next_PC {s t : State} (h : step s = .next t) :
    ∃ m, modeOfOpcode (s.memRead s.PC) = some m ∧ t.PC.toNat = (s.PC.toNat + m.length) % 65536 := by
  obtain ⟨i, hmode, rfl⟩ := step_next h
  refine ⟨i.mode, hmode, ?_⟩
  rw [adcCommon_PC, State.advancePC_PC_toNat, Instr.length]

/-- No variant reads PC to resolve its operand (40_addressing.md R68 to R75). -/
@[simp] theorem operandBus_setPC (i : Instr) (s : State) (pc : Word) : operandBus i (s.setPC pc) = operandBus i s := by
  cases i <;> rfl

/-- The common operation neither reads nor writes PC (41_adc.md R81, R93). -/
@[simp] theorem adcCommon_setPC (value : Byte) (s : State) (pc : Word) :
    adcCommon value (s.setPC pc) = (adcCommon value s).setPC pc := rfl

/-- An instruction does to a state with another PC what it does to the state itself, and keeps that PC (R56). -/
theorem exec_setPC {i : Instr} {s t : State} (h : exec i s = .next t) (pc : Word) :
    exec i (s.setPC pc) = .next (t.setPC pc) := by
  rw [exec_eq, operandBus_setPC, adcCommon_setPC, ← exec_next h]

end Sys2Proof.Machine

namespace Sys2Proof.Proofs

open Sys2Proof.Machine

/-- Settles O51: the step's one advance of PC, by a length that is 2 or 3, and that an instruction commutes with a change of PC. -/
theorem stepAdvancesPcByTheLength : Obligations.StepAdvancesPcByTheLength := by
  refine ⟨fun s t h => ?advance, fun _ _ _ pc h => exec_setPC h pc⟩
  case advance =>
    obtain ⟨m, hmode, hpc⟩ := step_next_PC h
    exact ⟨m, hmode, m.length_eq_two_or_three, hpc⟩

/-- Settles O44: the assembled word is `hiLo b2 b1`, whose value puts the first byte low. -/
theorem operandBytesAreAssembledLowFirst : Obligations.OperandBytesAreAssembledLowFirst := by
  intro b1 b2
  exact ⟨⟨hiLo b2 b1, hiLo_toNat b2 b1, rfl, rfl, rfl⟩, rfl, rfl, rfl, rfl, rfl⟩

end Sys2Proof.Proofs
end

section
/-! PROOFS. The addressing functions in numbers, and the bus reads of the variants and of a harness step (40_addressing.md R61 to
R66, R76). -/

namespace Sys2Proof.Machine

open Sys2Proof.Claims (addr)

/-! ### Addresses in numbers -/

/-- A word is the address with its number. -/
theorem eq_addr_of_toNat {w : Word} {n : Nat} (h : w.toNat = n % 65536) : w = addr n :=
  BitVec.eq_of_toNat_eq (h.trans (BitVec.toNat_ofNat n 16).symm)

theorem zext16_eq_addr (b : Byte) : zext16 b = addr b.toNat := by
  apply eq_addr_of_toNat
  have := b.isLt
  rw [zext16_toNat]
  omega

/-- Byte addition wraps, so an indexed zero-page location stays in the zero page (R62, R65, R66). -/
theorem zext16_add (a b : Byte) : zext16 (a + b) = addr ((a.toNat + b.toNat) % 256) := by
  rw [zext16_eq_addr, BitVec.toNat_add]

/-- The location after a zero-page location wraps in the zero page (R65, R66). -/
theorem zext16_add_one (b : Byte) : zext16 (b + 1) = addr ((b.toNat + 1) % 256) := zext16_add b 1

@[simp] theorem hi8_zext16 (b : Byte) : hi8 (zext16 b) = 0x00 := by
  apply BitVec.eq_of_toNat_eq
  rw [hi8_toNat, zext16_toNat, Nat.div_eq_of_lt b.isLt]
  rfl

theorem absIdx_toNat (address : Word) (idx : Byte) : (absIdx address idx).toNat = (address.toNat + idx.toNat) % 65536 := by
  rw [absIdx, BitVec.toNat_add, zext16_toNat]

theorem zeroIdx_toNat (address idx : Byte) : (zeroIdx address idx).toNat = (address.toNat + idx.toNat) % 256 := by
  rw [zeroIdx, zext16_toNat, BitVec.toNat_add]

/-- The address of the high byte, with the page's last byte told by its number (R63). -/
theorem absIndirectHighAddress_eq (address : Word) :
    absIndirectHighAddress address =
      if address.toNat % 256 = 255 then address &&& 0xFF00 else addr (address.toNat + 1) := by
  have hlast : lo8 address = 0xFF ↔ address.toNat % 256 = 255 := by
    rw [← BitVec.toNat_inj, lo8_toNat]
    rfl
  have hnext : address + 1 = addr (address.toNat + 1) := eq_addr_of_toNat (BitVec.toNat_add address 1)
  simp only [absIndirectHighAddress, hlast, hnext]

/-! ### The pointer fetches -/

theorem absIndirect_toNat (s : State) (address : Word) :
    (absIndirect s.mem address).toNat =
      (s.memRead (absIndirectHighAddress address)).toNat * 256 + (s.memRead address).toNat := hiLo_toNat _ _

theorem indirectX_toNat (s : State) (address x : Byte) :
    (indirectX s.mem address x).toNat =
      (s.memRead (zext16 (address + x + 1))).toNat * 256 + (s.memRead (zext16 (address + x))).toNat := hiLo_toNat _ _

/-- The carry of the low byte's sum, as the number it adds to the high byte. -/
theorem addCarry_toNat (a b : Byte) : (addCarry a b).toNat = if a.toNat + b.toNat > 255 then 1 else 0 :=
  Bool.cond_decide _ 1 0

/-- The index is added byte by byte, each sum with its own wrap, the carry between them (R66). -/
theorem indirectY_toNat (s : State) (address y : Byte) :
    let lo0 := s.memRead (zext16 address)
    let hi0 := s.memRead (zext16 (address + 1))
    (indirectY s.mem address y).toNat =
      (hi0.toNat + if lo0.toNat + y.toNat > 255 then 1 else 0) % 256 * 256 + (lo0.toNat + y.toNat) % 256 := by
  intro lo0 hi0
  change (hiLo (hi0 + b2b (addCarry lo0 y)) (lo0 + y)).toNat = _
  rw [hiLo_toNat, BitVec.toNat_add, BitVec.toNat_add, b2b_toNat, addCarry_toNat]

/-! ### The bus account: each traced function is the plain one, with its reads -/

theorem absIndirectBus_eq (m : Memory) (address : Word) :
    absIndirectBus m address =
      { value := absIndirect m address, reads := [address, absIndirectHighAddress address] } := rfl

theorem indirectXBus_eq (m : Memory) (address x : Byte) :
    indirectXBus m address x =
      { value := indirectX m address x, reads := [zext16 (address + x), zext16 (address + x + 1)] } := rfl

theorem indirectYBus_eq (m : Memory) (address y : Byte) :
    indirectYBus m address y =
      { value := indirectY m address y, reads := [zext16 address, zext16 (address + 1)] } := rfl

/-- `adc_common` reads nothing, so a variant's reads are those of its operand (R76). -/
theorem execBus_eq (i : Instr) (s : State) :
    execBus i s = { value := exec i s, reads := (operandBus i s).reads } := by
  rw [exec_eq, execBus, Traced.andThen]
  simp only [Traced.ret, List.append_nil]

/-- Fewer bytes from the same address are the first of them. -/
theorem Memory.take_readBytes (m : Memory) (a : Word) {k n : Nat} (h : k ≤ n) :
    (m.readBytes a n).take k = m.readBytes a k := by
  induction k generalizing a n with
  | zero => rfl
  | succ k ih =>
    cases n with
    | zero => contradiction
    | succ n => exact congrArg (m.read a.toNat :: ·) (ih (a + 1) (Nat.le_of_succ_le_succ h))

/-- The harness reads as many operand bytes as the format takes, from the address after the opcode on (30_encoding.md R55). -/
theorem operandBytesBus_eq (s : State) (f : Format) :
    operandBytesBus s f =
      { value := s.mem.readBytes (s.PC + 1) f.operandBytes, reads := [s.PC + 1, s.PC + 2].take f.operandBytes } := by
  cases f with
  | imm8 | zp8 => rfl
  | abs16 =>
    have hsucc : s.PC + 1 + 1 = s.PC + 2 := BitVec.add_assoc s.PC 1 1
    simp only [Format.operandBytes, Memory.readBytes, hsucc]
    rfl

/-- The traced harness step where the bytes at PC are instruction `i`: the reads of the instruction's bytes come before those of its
operand (30_encoding.md R57). -/
theorem stepBus_of_assemble {s : State} {i : Instr} (hmode : modeOfOpcode (s.memRead s.PC) = some i.mode)
    (hasm : assemble i.mode (s.mem.readBytes (s.PC + 1) i.mode.format.operandBytes) = some i) :
    stepBus s =
      { value := exec i (s.advancePC i.length),
        reads := [s.PC, s.PC + 1, s.PC + 2].take i.length ++ (operandBus i s).reads } := by
  have hop : (busRead s.mem s.PC).value = s.memRead s.PC := rfl
  simp only [stepBus, Traced.andThen, hop, hmode, operandBytesBus_eq, hasm, execBus_eq, operandBus_setPC, Instr.length,
    Mode.length, Nat.add_comm 1, List.take_succ_cons]
  rfl

end Sys2Proof.Machine

namespace Sys2Proof

/-- What a decoded instruction says of the bytes: the opcode byte has its mode, and the operand bytes after it assemble to it. -/
theorem mode_and_assemble_of_decode {op : Byte} {bs rest : List Byte} {i : Instr} (h : decode (op :: bs) = .ok (i, rest)) :
    modeOfOpcode op = some i.mode ∧ assemble i.mode (bs.take i.mode.format.operandBytes) = some i := by
  cases hmode : modeOfOpcode op with
  | none => simp [decode, hmode] at h
  | some m =>
    cases hasm : assemble m (bs.take m.format.operandBytes) with
    | none => simp [decode, hmode, hasm] at h
    | some j =>
      simp only [decode, hmode, hasm, Except.ok.injEq, Prod.mk.injEq] at h
      obtain ⟨rfl, -⟩ := h
      obtain ⟨rfl, -⟩ := operandBytes_of_assemble hasm
      exact ⟨rfl, hasm⟩

theorem Format.operandBytes_le_two (f : Format) : f.operandBytes ≤ 2 := by
  cases f <;> decide

end Sys2Proof

namespace Sys2Proof.Proofs

open Sys2Proof.Machine
open Sys2Proof.Claims (addr)

/-- Settles O20: the answer and the two reads of `absIndirect`, with the high byte's address written out in numbers. -/
theorem absoluteIndirectWrapsInItsPage : Obligations.AbsoluteIndirectWrapsInItsPage := by
  intro address s hiAddr
  have hhi : hiAddr = absIndirectHighAddress address := (absIndirectHighAddress_eq address).symm
  rw [hhi]
  exact ⟨absIndirect s.mem address, rfl, absIndirect_toNat s address, absIndirectBus_eq s.mem address⟩

/-- Settles O22: the answer and the two reads of `indirectX`, the pointer location and its successor written out in numbers. -/
theorem indirectXFetchesItsPointerInTheZeroPage : Obligations.IndirectXFetchesItsPointerInTheZeroPage := by
  intro address x s p
  have hp : addr p = zext16 (address + x) := (zext16_add address x).symm
  have hp1 : addr ((p + 1) % 256) = zext16 (address + x + 1) := by
    rw [zext16_add_one, BitVec.toNat_add]
  rw [hp, hp1]
  exact ⟨indirectX s.mem address x, rfl, indirectX_toNat s address x, indirectXBus_eq s.mem address x⟩

/-- Settles O23: the answer and the two reads of `indirectY`, the pointer locations written out in numbers. -/
theorem indirectYAddsTheIndexToThePointer : Obligations.IndirectYAddsTheIndexToThePointer := by
  intro address y s
  rw [← zext16_eq_addr, ← zext16_add_one]
  exact ⟨indirectY s.mem address y, rfl, indirectY_toNat s address y, indirectYBus_eq s.mem address y⟩

/-- Settles O56: the eight rows, the traced variant against `exec`, and the harness step that reads the instruction's bytes first. -/
theorem busReadsAreTheTableRows : Obligations.BusReadsAreTheTableRows := by
  intro s t b w
  refine ⟨rfl, rfl, rfl, rfl, rfl, rfl, rfl, rfl, fun i => ?variant, fun i rest h => ?harness⟩
  case variant =>
    rw [execBus_eq]
    exact ⟨rfl, rfl, exec_mem⟩
  case harness =>
    have hbytes : s.mem.readBytes s.PC 3 = s.memRead s.PC :: s.mem.readBytes (s.PC + 1) 2 := rfl
    rw [hbytes] at h
    obtain ⟨hmode, hasm⟩ := mode_and_assemble_of_decode h
    rw [Memory.take_readBytes _ _ i.mode.format.operandBytes_le_two] at hasm
    rw [stepBus_of_assemble hmode hasm]

/-- Settles O18: the answer is `absIdx`, the sum modulo 65536. -/
theorem absoluteIndexedAddsModulo65536 : Obligations.AbsoluteIndexedAddsModulo65536 := by
  intro address idx s
  exact ⟨absIdx address idx, rfl, absIdx_toNat address idx⟩

/-- Settles O19: the answer is `zeroIdx`, a byte sum extended with a zero high byte. -/
theorem zeroPageIndexedWrapsInTheZeroPage : Obligations.ZeroPageIndexedWrapsInTheZeroPage := by
  intro address idx s
  exact ⟨zeroIdx address idx, rfl, zeroIdx_toNat address idx, hi8_zext16 (address + idx)⟩

end Sys2Proof.Proofs
end

section
/-! PROOFS. The outcome of the common operation and what it depends on (41_adc.md R81, R84, R94). -/

namespace Sys2Proof.Machine

open Sys2Proof.Claims (AddsWithCarry)

/-! ### The common operation has the outcome of R81 -/

@[simp] theorem invoke_adcCommon (value : Byte) (s : State) :
    invoke (.adcCommon value) s = (.unit, adcCommon value s) := rfl

theorem adcOverflow_eq_decide (a value result : Byte) :
    adcOverflow a value result = decide ((a ^^^ value) &&& 0x80 = 0x00 ∧ (a ^^^ result) &&& 0x80 = 0x80) :=
  (Bool.decide_and _ _).symm

/-- The new status byte, its V, N and Z taken from the new accumulator (R81, steps 4 to 7). -/
theorem adcCommon_P_of_A (value : Byte) (s : State) :
    (adcCommon value s).P =
      adcStatus s.P (adcCarry s.A value (s.P.getLsbD 0)) (adcOverflow s.A value (adcCommon value s).A)
        (adcNegative (adcCommon value s).A) (adcZeroFlag (adcCommon value s).A) := by
  rw [adcCommon_A, adcCommon_P]

/-- The outcome of R81: the sum's low byte in A, each flag the bit that the flag updater wrote, and the rest kept. -/
theorem adcCommon_addsWithCarry (value : Byte) (s : State) : AddsWithCarry s value (adcCommon value s) := by
  have hA : (adcCommon value s).A.toNat = adcSum s.A value (s.P.getLsbD 0) % 256 := by
    rw [adcCommon_A, adcResult_toNat]
  have hbits := adcStatus_bits s.P (adcCarry s.A value (s.P.getLsbD 0)) (adcOverflow s.A value (adcCommon value s).A)
    (adcNegative (adcCommon value s).A) (adcZeroFlag (adcCommon value s).A)
  rw [← adcCommon_P_of_A, adcOverflow_eq_decide] at hbits
  obtain ⟨hC, hZ, hV, hN, hkept⟩ := hbits
  exact ⟨hA, hC, hV, hN, hZ, hkept, adcCommon_X value s, adcCommon_Y value s, adcCommon_PC value s, adcCommon_mem value s⟩

/-! ### What that outcome depends on -/

/-- The mask 0xC3 has the flags C, Z, V and N and no others (10_state.md R14). -/
theorem getLsbD_0xC3 (i : Fin 8) : (0xC3 : Byte).getLsbD i = true ↔ i = 0 ∨ i = 1 ∨ i = 6 ∨ i = 7 := by
  revert i; decide

/-- Status bytes with the same C, Z, V and N are the same under the mask 0xC3. -/
theorem and_0xC3_congr {p q : Byte} (hC : p.getLsbD 0 = q.getLsbD 0) (hZ : p.getLsbD 1 = q.getLsbD 1)
    (hV : p.getLsbD 6 = q.getLsbD 6) (hN : p.getLsbD 7 = q.getLsbD 7) : p &&& 0xC3 = q &&& 0xC3 := by
  apply BitVec.eq_of_getLsbD_eq
  intro i hi
  rw [BitVec.getLsbD_and, BitVec.getLsbD_and]
  cases hm : (0xC3 : Byte).getLsbD i with
  | false => rw [Bool.and_false, Bool.and_false]
  | true =>
    congr 1
    have hflag := (getLsbD_0xC3 ⟨i, hi⟩).1 hm
    simp only [Fin.ext_iff] at hflag
    obtain rfl | rfl | rfl | rfl := hflag
    exacts [hC, hZ, hV, hN]

/-- The outcome of R81 fixes A, C, Z, V and N by the old A, the old carry and the operand alone (R94). -/
theorem addsWithCarry_agree {value : Byte} {s s' t t' : State} (hA : s.A = s'.A)
    (hcarry : s.P.getLsbD 0 = s'.P.getLsbD 0) (h : AddsWithCarry s value t) (h' : AddsWithCarry s' value t') :
    t.A = t'.A ∧ t.P &&& 0xC3 = t'.P &&& 0xC3 := by
  obtain ⟨hsum, hC, hV, hN, hZ, -⟩ := h
  obtain ⟨hsum', hC', hV', hN', hZ', -⟩ := h'
  have hresult : t.A = t'.A := by
    apply BitVec.eq_of_toNat_eq
    rw [hsum, hsum', hA, hcarry]
  refine ⟨hresult, and_0xC3_congr ?C ?Z ?V ?N⟩
  case C => rw [hC, hC', hA, hcarry]
  case Z => rw [hZ, hZ', hresult]
  case V => rw [hV, hV', hA, hresult]
  case N => rw [hN, hN', hresult]

/-- Setting or clearing P.D leaves the carry alone (10_state.md R14). -/
theorem carry_setDecimal_eq_carry_clearDecimal (p : Byte) : (p ||| 0x08).getLsbD 0 = (p &&& 0xF7).getLsbD 0 := by
  simp

end Sys2Proof.Machine

namespace Sys2Proof.Proofs

open Sys2Proof.Machine

/-- Settles O27: the operation answers `adcCommon`, which has the outcome of R81. -/
theorem adcCommonAddsWithCarry : Obligations.AdcCommonAddsWithCarry := by
  intro value s
  exact ⟨adcCommon value s, invoke_adcCommon value s, adcCommon_addsWithCarry value s⟩

/-- Settles O30: both runs have the outcome of R81, and their start states agree on A and the carry, all that it depends on. -/
theorem decimalFlagIsNotHonoured : Obligations.DecimalFlagIsNotHonoured := by
  intro value s d b
  have hA : d.A = b.A := rfl
  have hcarry : d.P.getLsbD 0 = b.P.getLsbD 0 := carry_setDecimal_eq_carry_clearDecimal s.P
  have hd := adcCommon_addsWithCarry value d
  have hb := adcCommon_addsWithCarry value b
  exact ⟨hd, hb, addsWithCarry_agree hA hcarry hd hb⟩

end Sys2Proof.Proofs
end

section
/-! PROOFS. The host's memory interactions, and that no operation fails (60_exceptions.md R100, R107). -/

namespace Sys2Proof.Machine

@[simp] theorem invoke_read (a : Word) (s : State) : invoke (.read a) s = (.byte (s.memRead a), s) := rfl
@[simp] theorem hostAct_readMem (a : Word) (s : State) : hostAct (.readMem a) s = (.byte (s.memRead a), s) := rfl
@[simp] theorem hostAct_writeMem (a : Word) (v : Byte) (s : State) :
    hostAct (.writeMem a v) s = (.unit, s.memWrite a v) := rfl
@[simp] theorem hostAct_invoke (op : Operation) (s : State) : hostAct (.invoke op) s = invoke op s := rfl

/-- After a memory write the host reads the new byte at its address and the old one at every other (20_memory.md R40). -/
theorem hostAct_readMem_memWrite {s : State} (h : s.mem.wf = true) (a b : Word) (v : Byte) :
    hostAct (.readMem b) (s.memWrite a v) = (.byte (if b = a then v else s.memRead b), s.memWrite a v) := by
  rw [hostAct_readMem, State.memRead_memWrite h]

end Sys2Proof.Machine

namespace Sys2Proof.Proofs

open Sys2Proof.Machine

/-- Settles O41: every instruction answers `adcCommon` of its operand, and `Fault` has no value for a step to answer. -/
theorem noOperationFails : Obligations.NoOperationFails :=
  ⟨fun i s => ⟨adcCommon (operandBus i s).value s, exec_eq i s⟩, fun _ f => nomatch f⟩

/-- Settles O59: the register rows field by field, the memory rows as the bus primitives with a write read back at every address,
and reset and invocation as those operations. -/
theorem hostInteractionsWriteOnlyTheirTarget : Obligations.HostInteractionsWriteOnlyTheirTarget := by
  intro s v w a op
  have hwriteMem : hostAct (.writeMem a v) s = invoke (.write a v) s := by rw [hostAct_writeMem, invoke_write]
  have hreset : hostAct .reset s = invoke .reset s := by rw [hostAct_reset, invoke_reset]
  refine ⟨fun _ => rfl, rfl, rfl, rfl, rfl, rfl, rfl, rfl, rfl, rfl, rfl, hostAct_readMem a s, invoke_read a s, hwriteMem,
    fun hwf => ?readBack, hreset, hostAct_invoke op s⟩
  case readBack =>
    exact ⟨s.memWrite a v, hostAct_writeMem a v s, State.memWrite_toRegisters s a v,
      fun b => hostAct_readMem_memWrite hwf a b v⟩

end Sys2Proof.Proofs
end

section
/-! PROOFS. Resets after a run of host interactions (70_reset_and_hazards.md R117). -/

namespace Sys2Proof.Machine

/-- The state a reset leaves, as a record: the constructed register file beside the old memory (10_state.md R29). -/
theorem State.resetRegisters_eq (s : State) : s.resetRegisters = { Registers.construct with mem := s.mem } := rfl

/-- A reset right after a reset changes nothing more. -/
@[simp] theorem State.resetRegisters_resetRegisters (s : State) : s.resetRegisters.resetRegisters = s.resetRegisters := rfl

theorem hostRun_reset_cons (hs : List HostAction) (s : State) :
    (hostRun (.reset :: hs) s).2 = (hostRun hs s.resetRegisters).2 := rfl

/-- One or more resets in a row leave the state that the first of them leaves (70_reset_and_hazards.md R117). -/
theorem hostRun_replicate_reset (n : Nat) (s : State) :
    (hostRun (List.replicate (n + 1) .reset) s).2 = s.resetRegisters := by
  induction n generalizing s with
  | zero => rfl
  | succ n ih => rw [List.replicate_succ, hostRun_reset_cons, ih, State.resetRegisters_resetRegisters]

end Sys2Proof.Machine

namespace Sys2Proof.Proofs

open Sys2Proof.Machine

/-- Settles O3: the resets run from the state where the interactions end, and together leave what one reset of it leaves. -/
theorem resetMayFollowAnyInteractions : Obligations.ResetMayFollowAnyInteractions := by
  intro hs n s
  rw [hostRun_append, hostRun_replicate_reset, State.resetRegisters_eq]

end Sys2Proof.Proofs
end

section
/-! PROOFS. Memory as a function of its addresses: the canonical list of a contents, and runs of host interactions on memory
(20_memory.md sections 1 and 4; 60_exceptions.md section 5). -/

namespace Sys2Proof.Machine

open Sys2Proof.Claims (lastWrite)

/-! ### A canonical list is its contents -/

/-- A canonical list from `lo` on reads 0x00 below `lo`, so it does not read like a list with an entry there (entry 1). -/
theorem Memory.le_of_read_eq {m n : Memory} {k lo lo' : Nat} {v : Byte} (hm : Memory.wfFrom lo ((k, v) :: m) = true)
    (hn : Memory.wfFrom lo' n = true) (h : Memory.read ((k, v) :: m) k = n.read k) : lo' ≤ k := by
  obtain ⟨-, -, hv, -⟩ := Memory.wfFrom_cons.1 hm
  by_contra hlt
  rw [Memory.read_below hn (Nat.lt_of_not_le hlt), Memory.read, if_pos rfl] at h
  exact hv h

/-- The tails of canonical lists with the same first entry read alike where the lists do. -/
theorem Memory.read_tail_eq {m n : Memory} {k a : Nat} {v : Byte} (hm : Memory.wfFrom (k + 1) m = true)
    (hn : Memory.wfFrom (k + 1) n = true) (h : Memory.read ((k, v) :: m) a = Memory.read ((k, v) :: n) a) :
    m.read a = n.read a := by
  by_cases ha : a = k
  · have hlt : a < k + 1 := by omega
    rw [Memory.read_below hm hlt, Memory.read_below hn hlt]
  · simpa only [Memory.read, if_neg ha] using h

/-- Canonical lists that read alike are the same list: their first entries name the same address, and so do the rest. -/
theorem Memory.eq_of_read_eq {m n : Memory} {lo : Nat} (hm : Memory.wfFrom lo m = true) (hn : Memory.wfFrom lo n = true)
    (h : ∀ a < Config.addressCount, m.read a = n.read a) : m = n := by
  induction m generalizing lo n with
  | nil =>
    cases n with
    | nil => rfl
    | cons e n =>
      obtain ⟨-, hk, -, -⟩ := Memory.wfFrom_cons.1 hn
      exact absurd (Memory.le_of_read_eq (lo' := e.1 + 1) (n := []) hn rfl (h _ hk).symm) (by omega)
  | cons e m ih =>
    obtain ⟨k, v⟩ := e
    obtain ⟨-, hk, hv, hmTail⟩ := Memory.wfFrom_cons.1 hm
    cases n with
    | nil => exact absurd (Memory.le_of_read_eq (lo' := k + 1) (n := []) hm rfl (h k hk)) (by omega)
    | cons e' n =>
      obtain ⟨k', v'⟩ := e'
      obtain ⟨-, hk', hv', hnTail⟩ := Memory.wfFrom_cons.1 hn
      have hmFrom := Memory.wfFrom_cons.2 ⟨le_refl k, hk, hv, hmTail⟩
      have hnFrom := Memory.wfFrom_cons.2 ⟨le_refl k', hk', hv', hnTail⟩
      have hle : k' ≤ k := Memory.le_of_read_eq hm hnFrom (h k hk)
      have hge : k ≤ k' := Memory.le_of_read_eq hn hmFrom (h k' hk').symm
      obtain rfl : k = k' := le_antisymm hge hle
      obtain rfl : v = v' := by simpa only [Memory.read, if_true] using h k hk
      rw [ih hmTail hnTail fun a ha => Memory.read_tail_eq hmTail hnTail (h a ha)]

/-- The tabulated memory has the tabulated byte at each of its addresses. -/
theorem Memory.read_tabulate {f : Nat → Byte} {n a : Nat} (hn : n ≤ Config.addressCount) (ha : a < n) :
    (Memory.tabulate f n).read a = f a := by
  induction n with
  | zero => contradiction
  | succ n ih =>
    rw [Memory.tabulate]
    by_cases hlast : a = n
    · rw [hlast]
      exact Memory.read_write_same (Memory.tabulate_wf (by omega))
    · rw [Memory.read_write_other hlast]
      exact ih (by omega) (by omega)

/-- Every contents has a canonical list (entry 1). -/
theorem Memory.exists_wf_read_eq (f : Nat → Byte) :
    ∃ m : Memory, m.wf = true ∧ ∀ a < Config.addressCount, m.read a = f a :=
  ⟨Memory.tabulate f Config.addressCount, Memory.tabulate_wf (Nat.le_refl _),
    fun _ => Memory.read_tabulate (Nat.le_refl _)⟩

/-- The address with a number below 65536 has that number. -/
theorem ofNat_toNat_of_lt {a : Nat} (ha : a < Config.addressCount) : (BitVec.ofNat 16 a).toNat = a :=
  (BitVec.toNat_ofNat a 16).trans (Nat.mod_eq_of_lt ha)

/-- The canonical form is unique: states with canonical memories that read alike have the same list (entry 1). -/
theorem State.mem_eq_of_memRead_eq {s t : State} (hs : CanonicalMemory s) (ht : CanonicalMemory t)
    (h : ∀ a, s.memRead a = t.memRead a) : s.mem = t.mem := by
  refine Memory.eq_of_read_eq hs ht fun a ha => ?_
  have hword := h (BitVec.ofNat 16 a)
  rwa [State.memRead, State.memRead, ofNat_toNat_of_lt ha] at hword

/-- A state is its register file and its memory (10_state.md R11). -/
theorem State.eq_of_toRegisters_of_mem {s t : State} (hreg : s.toRegisters = t.toRegisters) (hmem : s.mem = t.mem) : s = t := by
  obtain ⟨r, m⟩ := s
  obtain ⟨r', m'⟩ := t
  congr

/-! ### Runs of host interactions -/

@[simp] theorem hostRun_cons (h : HostAction) (hs : List HostAction) (s : State) :
    (hostRun (h :: hs) s).2 = (hostRun hs (hostAct h s).2).2 := rfl

/-- A property that every interaction of a run keeps holds where the run ends (70_reset_and_hazards.md R123). -/
theorem hostRun_induction {motive : State → Prop} {hs : List HostAction}
    (step : ∀ h ∈ hs, ∀ s, motive s → motive (hostAct h s).2) {s : State} (hstart : motive s) :
    motive (hostRun hs s).2 := by
  induction hs generalizing s with
  | nil => exact hstart
  | cons h hs ih =>
    rw [hostRun_cons]
    exact ih (fun k hk => step k (List.mem_cons_of_mem h hk)) (step h List.mem_cons_self s hstart)

theorem hostRun_canonicalMemory (hs : List HostAction) {s : State} (h : CanonicalMemory s) :
    CanonicalMemory (hostRun hs s).2 :=
  hostRun_induction (motive := CanonicalMemory) (fun k _ _ => hostAct_wf k) h

/-- The last write of a run is the last write of what follows its first interaction, from the byte that one leaves. -/
theorem lastWrite_cons (a : Word) (init : Byte) (h : HostAction) (hs : List HostAction) :
    lastWrite a init (h :: hs) = lastWrite a (lastWrite a init [h]) hs := by
  cases h with
  | invoke op => cases op <;> rfl
  | _ => rfl

/-- A write leaves at each address the byte that its account as a one-element run gives (20_memory.md R32, R40). -/
theorem memRead_memWrite_eq_ite {s : State} (hs : CanonicalMemory s) (a b : Word) (v : Byte) :
    (s.memWrite b v).memRead a = if b = a then v else s.memRead a := by
  rw [State.memRead_memWrite hs]
  exact if_congr eq_comm rfl rfl

/-- One interaction leaves at each address the byte it wrote there, if it wrote there, and the old one otherwise. -/
theorem hostAct_memRead {s : State} (hs : CanonicalMemory s) (h : HostAction) (a : Word) :
    (hostAct h s).2.memRead a = lastWrite a (s.memRead a) [h] := by
  cases h with
  | writeMem b v => exact memRead_memWrite_eq_ite hs a b v
  | writeReg r v => cases r <;> rfl
  | invoke op =>
    cases op with
    | write b v => exact memRead_memWrite_eq_ite hs a b v
    | _ => rfl
  | _ => rfl

/-- Sequential consistency with one agent: memory after a run has the bytes last written (20_memory.md section 4). -/
theorem hostRun_memRead {s : State} (hs : CanonicalMemory s) (ks : List HostAction) (a : Word) :
    (hostRun ks s).2.memRead a = lastWrite a (s.memRead a) ks := by
  induction ks generalizing s with
  | nil => rfl
  | cons k ks ih => rw [hostRun_cons, ih (hostAct_wf k hs), hostAct_memRead hs, ← lastWrite_cons]

/-! ### Restoring a saved state -/

theorem hostRun_restoreRegisters_toRegisters (saved s : State) :
    (hostRun (restoreRegisters saved) s).2.toRegisters = saved.toRegisters := rfl

theorem hostRun_restoreMemory_succ (saved s : State) (n : Nat) :
    (hostRun (restoreMemory saved (n + 1)) s).2 =
      (hostRun (restoreMemory saved n) s).2.memWrite (BitVec.ofNat 16 n) (saved.mem.read n) := by
  rw [restoreMemory, List.range_succ, List.map_append, hostRun_append]
  rfl

theorem hostRun_restoreMemory_toRegisters (saved s : State) (n : Nat) :
    (hostRun (restoreMemory saved n) s).2.toRegisters = s.toRegisters := by
  induction n with
  | zero => rfl
  | succ n ih => rw [hostRun_restoreMemory_succ, State.memWrite_toRegisters, ih]

/-- The restored bytes stand in memory: a later byte goes to a later address. -/
theorem hostRun_restoreMemory_read (saved : State) {s : State} (hs : CanonicalMemory s) {n a : Nat}
    (hn : n ≤ Config.addressCount) (ha : a < n) :
    (hostRun (restoreMemory saved n) s).2.mem.read a = saved.mem.read a := by
  induction n with
  | zero => contradiction
  | succ n ih =>
    rw [hostRun_restoreMemory_succ, State.memWrite_mem, ofNat_toNat_of_lt (by omega)]
    by_cases hlast : a = n
    · rw [hlast]
      exact Memory.read_write_same (hostRun_canonicalMemory _ hs)
    · rw [Memory.read_write_other hlast]
      exact ih (by omega) (by omega)

/-- Once the registers are the saved ones, putting back every byte gives the saved state (60_exceptions.md R109). -/
theorem hostRun_restoreMemory_eq {saved s : State} {n : Nat} (hsaved : CanonicalMemory saved) (hs : CanonicalMemory s)
    (hreg : s.toRegisters = saved.toRegisters) (hn : n = Config.addressCount) :
    (hostRun (restoreMemory saved n) s).2 = saved := by
  refine State.eq_of_toRegisters_of_mem ((hostRun_restoreMemory_toRegisters saved s n).trans hreg) ?_
  refine Memory.eq_of_read_eq (hostRun_canonicalMemory _ hs) hsaved fun a ha => ?_
  exact hostRun_restoreMemory_read saved hs hn.le (hn ▸ ha)

end Sys2Proof.Machine

namespace Sys2Proof.Proofs

open Sys2Proof.Machine

/-- Settles O6: each interaction keeps the canonical form, so a run of them does. -/
theorem hostRunKeepsCanonicalMemory : Obligations.HostRunKeepsCanonicalMemory :=
  fun hs _ => hostRun_canonicalMemory hs

/-- Settles O17, by induction on the interactions: each leaves at the address the byte that its own account gives. -/
theorem readReturnsTheLastWrite : Obligations.ReadReturnsTheLastWrite := by
  intro hs s a hwf
  rw [hostAct_readMem, hostRun_memRead hwf]

/-- Settles O60: the register file and every byte are the saved ones, and a canonical state is determined by those. -/
theorem restoredStateIsTheSavedState : Obligations.RestoredStateIsTheSavedState := by
  intro saved s hsaved hs
  rw [restoreActions, hostRun_append]
  exact hostRun_restoreMemory_eq hsaved (hostRun_canonicalMemory _ hs) (hostRun_restoreRegisters_toRegisters saved s) rfl

/-- Settles O15: the contents written down address by address, as `Memory.tabulate` does. -/
theorem everyMemoryContentsIsRepresented : Obligations.EveryMemoryContentsIsRepresented := by
  intro mem0 r
  obtain ⟨m, hwf, hread⟩ := Memory.exists_wf_read_eq fun a => mem0 (BitVec.ofNat 16 a)
  refine ⟨{ r with mem := m }, hwf, rfl, fun a => ?_⟩
  rw [State.memRead, hread _ a.isLt, BitVec.ofNat_toNat, BitVec.setWidth_eq]

/-- Settles O16: the canonical form of a contents is unique. -/
theorem canonicalMemoriesReadingAlikeAreEqual : Obligations.CanonicalMemoriesReadingAlikeAreEqual :=
  fun _ _ => State.mem_eq_of_memRead_eq

end Sys2Proof.Proofs
end

section
/-! PROOFS. What the addressing functions read and answer in closed form, and what they depend on (40_addressing.md sections 1 and 2). -/

namespace Sys2Proof.Machine

/-- Masking with 0xFF00 goes to the start of the page. -/
theorem and_0xFF00_eq_hiLo (w : Word) : w &&& 0xFF00 = hiLo (hi8 w) 0x00 := by
  have hmask : (0xFF00 : Word) = hiLo 0xFF 0x00 := rfl
  calc w &&& 0xFF00 = hiLo (hi8 w) (lo8 w) &&& hiLo 0xFF 0x00 := by rw [hiLo_hi8_lo8, hmask]
    _ = hiLo (hi8 w &&& 0xFF) (lo8 w &&& 0x00) := BitVec.and_append
    _ = hiLo (hi8 w) 0x00 := congrArg₂ hiLo BitVec.and_allOnes BitVec.and_zero

/-- Both branches of R63 increment the low byte alone. -/
theorem absIndirectHighAddress_eq_hiLo (address : Word) :
    absIndirectHighAddress address = hiLo (hi8 address) (lo8 address + 1) := by
  rw [absIndirectHighAddress]
  split
  case isTrue hlast => rw [and_0xFF00_eq_hiLo, hlast]; rfl
  case isFalse hlast =>
    have hlow : address.toNat % 256 ≠ 255 := fun h => hlast (BitVec.eq_of_toNat_eq ((lo8_toNat address).trans h))
    have hlt := address.isLt
    apply BitVec.eq_of_toNat_eq
    rw [hiLo_toNat, hi8_toNat, BitVec.toNat_add, BitVec.toNat_add, lo8_toNat]
    change (address.toNat + 1) % 65536 = address.toNat / 256 * 256 + (address.toNat % 256 + 1) % 256
    omega

/-- The byte sums of R66 and the carry between them are one 16-bit sum. -/
theorem indirectY_toNat_eq_pointer_add (m : Memory) (address y : Byte) :
    (indirectY m address y).toNat =
      ((hiLo (m.read (zext16 (address + 1)).toNat) (m.read (zext16 address).toNat)).toNat + y.toNat) % 65536 := by
  have hsum := addCarry_spec (m.read (zext16 address).toNat) y
  have hlow := (m.read (zext16 address).toNat + y).isLt
  rw [indirectY, hiLo_toNat, hiLo_toNat, BitVec.toNat_add (m.read (zext16 (address + 1)).toNat), b2b_toNat]
  omega

/-- Every address that is a zero-extended byte lies in the zero page. -/
theorem toNat_lt_256_of_mem_zext16 {bs : List Byte} : ∀ r ∈ bs.map zext16, r.toNat < 256 := by
  intro r hr
  obtain ⟨b, -, rfl⟩ := List.mem_map.1 hr
  rw [zext16_toNat]
  exact b.isLt

end Sys2Proof.Machine

namespace Sys2Proof.Proofs

open Sys2Proof.Machine

/-- Settles O21: the high byte's address has the high byte of the pointer's address in both branches. -/
theorem absoluteIndirectReadsOnePage : Obligations.AbsoluteIndirectReadsOnePage := by
  intro address m
  rw [absIndirectBus_eq, absIndirect, absIndirectHighAddress_eq_hiLo]
  refine ⟨rfl, ?_⟩
  rw [List.forall_mem_cons, List.forall_mem_singleton]
  exact ⟨rfl, hi8_hiLo _ _⟩

/-- Settles O24: the closed form of `indirectY`. -/
theorem indirectYIsThePointerPlusTheIndex : Obligations.IndirectYIsThePointerPlusTheIndex :=
  indirectY_toNat_eq_pointer_add

/-- Settles O26: each of these addresses is a zero-extended byte. -/
theorem zeroPageReadsStayBelow256 : Obligations.ZeroPageReadsStayBelow256 := by
  intro a s
  exact ⟨toNat_lt_256_of_mem_zext16 (bs := [a]), toNat_lt_256_of_mem_zext16 (bs := [a + s.X]),
    toNat_lt_256_of_mem_zext16 (bs := [a + s.X, a + s.X + 1]), toNat_lt_256_of_mem_zext16 (bs := [a, a + 1])⟩

/-- Settles O25: two of the functions read no memory, and the other three read it from the same list. -/
theorem addressingFunctionsDependOnMemoryAlone : Obligations.AddressingFunctionsDependOnMemoryAlone := by
  rintro ⟨r, m⟩ ⟨r', m'⟩ hmem op hop
  obtain rfl : m = m' := hmem
  obtain ⟨a, i, rfl⟩ | ⟨a, i, rfl⟩ | ⟨a, rfl⟩ | ⟨a, x, rfl⟩ | ⟨a, y, rfl⟩ := hop
  · exact ⟨absIdx a i, rfl, rfl⟩
  · exact ⟨zeroIdx a i, rfl, rfl⟩
  · exact ⟨absIndirect m a, rfl, rfl⟩
  · exact ⟨indirectX m a x, rfl, rfl⟩
  · exact ⟨indirectY m a y, rfl, rfl⟩

end Sys2Proof.Proofs
end

section
/-! PROOFS. The arithmetic laws of the common operation, and chains of adds (41_adc.md section 2; 70_reset_and_hazards.md section 3). -/

namespace Sys2Proof.Machine

open Sys2Proof.Claims (AddsWithCarry addChain leValue)

/-! ### Laws of the outcome of R81 -/

/-- New A and carry out are together the exact sum. -/
theorem addsWithCarry_exactSum {s t : State} {value : Byte} (h : AddsWithCarry s value t) :
    t.A.toNat + 256 * (t.P.getLsbD 0).toNat = s.A.toNat + value.toNat + (s.P.getLsbD 0).toNat := by
  obtain ⟨hA, hC, -⟩ := h
  have hlt := s.A.isLt
  have hlt' := value.isLt
  have hcarry := Bool.toNat_le (s.P.getLsbD 0)
  have hcarryOut : (t.P.getLsbD 0).toNat = if s.A.toNat + value.toNat + (s.P.getLsbD 0).toNat > 255 then 1 else 0 := by
    rw [hC]
    exact Bool.cond_decide _ 1 0
  rw [hA, hcarryOut]
  split <;> omega

/-- Bit 7 of a byte, as a mask tells it, is its sign. -/
theorem and_0x80_eq_iff_msb (b : Byte) : b &&& 0x80 = 0x80 ↔ b.msb = true := by
  revert b; decide

theorem and_0x80_eq_zero_iff_msb (b : Byte) : b &&& 0x80 = 0x00 ↔ b.msb = false := by
  revert b; decide

/-- Step 4 of R81 in signs: the operands have one sign and the result has the other. -/
theorem sameSignIn_otherOut_iff_msb (a value result : Byte) :
    (a ^^^ value) &&& 0x80 = 0x00 ∧ (a ^^^ result) &&& 0x80 = 0x80 ↔ a.msb = value.msb ∧ result.msb = !a.msb := by
  rw [and_0x80_eq_zero_iff_msb, and_0x80_eq_iff_msb, BitVec.msb_xor, BitVec.msb_xor]
  cases a.msb <;> cases value.msb <;> cases result.msb <;> decide

/-- The other spelling of step 4: the result differs in sign from both operands. -/
theorem differsFromBoth_iff_msb (a value result : Byte) :
    (a ^^^ result) &&& (value ^^^ result) &&& 0x80 = 0x80 ↔ a.msb = value.msb ∧ result.msb = !a.msb := by
  rw [and_0x80_eq_iff_msb, BitVec.msb_and, BitVec.msb_xor, BitVec.msb_xor]
  cases a.msb <;> cases value.msb <;> cases result.msb <;> decide

/-- A byte's signed value, from its sign and its number. -/
theorem toInt_byte (b : Byte) : b.msb = decide (128 ≤ b.toNat) ∧ b.toInt = b.toNat - if 128 ≤ b.toNat then 256 else 0 := by
  have hmsb : b.msb = decide (128 ≤ b.toNat) := BitVec.msb_eq_decide b
  refine ⟨hmsb, ?_⟩
  rw [BitVec.toInt_eq_msb_cond, hmsb]
  by_cases h : 128 ≤ b.toNat <;> simp [h]

/-- Signs tell whether the exact signed sum leaves -128..127: with operands of one sign, the result has the other. -/
theorem signs_iff_signedSum_outOfRange {a value result : Byte} {c : Bool}
    (h : result.toNat = (a.toNat + value.toNat + c.toNat) % 256) :
    (a.msb = value.msb ∧ result.msb = !a.msb) ↔
      ¬(-128 ≤ a.toInt + value.toInt + (c.toNat : Int) ∧ a.toInt + value.toInt + (c.toNat : Int) ≤ 127) := by
  obtain ⟨hsignA, hintA⟩ := toInt_byte a
  obtain ⟨hsignV, hintV⟩ := toInt_byte value
  have hsignR := (toInt_byte result).1
  have hltA := a.isLt
  have hltV := value.isLt
  have hc := Bool.toNat_le c
  rw [hsignA, hsignV, hsignR, hintA, hintV, h, ← decide_not, decide_eq_decide, decide_eq_decide]
  omega

/-! ### Chains of adds -/

/-- One link of a chain: the written accumulator plus the operand, with the carry of the state before. -/
theorem addChain_cons (a b : Byte) (rest : List (Byte × Byte)) (s : State) :
    addChain ((a, b) :: rest) s =
      ((adcCommon b (s.setA a)).A :: (addChain rest (adcCommon b (s.setA a))).1,
        (addChain rest (adcCommon b (s.setA a))).2) := rfl

/-- A link adds its two bytes and the carry exactly. -/
theorem addChain_link_exactSum (a b : Byte) (s : State) :
    (adcCommon b (s.setA a)).A.toNat + 256 * ((adcCommon b (s.setA a)).P.getLsbD 0).toNat =
      a.toNat + b.toNat + (s.P.getLsbD 0).toNat :=
  addsWithCarry_exactSum (adcCommon_addsWithCarry b (s.setA a))

theorem addChain_length (pairs : List (Byte × Byte)) (s : State) : (addChain pairs s).1.length = pairs.length := by
  induction pairs generalizing s with
  | nil => rfl
  | cons p rest ih => rw [addChain_cons, List.length_cons, List.length_cons, ih]

/-- The carry that a link leaves is the carry in of the rest of the chain, one place higher. -/
theorem addChain_exactSum (pairs : List (Byte × Byte)) (s : State) :
    leValue (addChain pairs s).1 + 256 ^ pairs.length * ((addChain pairs s).2.P.getLsbD 0).toNat =
      leValue (pairs.map Prod.fst) + leValue (pairs.map Prod.snd) + (s.P.getLsbD 0).toNat := by
  induction pairs generalizing s with
  | nil => simp [addChain, leValue]
  | cons p rest ih =>
    obtain ⟨a, b⟩ := p
    have hlink := addChain_link_exactSum a b s
    have hrest := ih (adcCommon b (s.setA a))
    simp only [addChain_cons, leValue, List.map_cons, List.length_cons, pow_succ]
    linear_combination hlink + 256 * hrest

end Sys2Proof.Machine

namespace Sys2Proof.Proofs

open Sys2Proof.Machine

/-- Settles O42, by induction on the bytes: each link is an exact sum whose carry the next one adds. -/
theorem multiByteAdditionIsExact : Obligations.MultiByteAdditionIsExact :=
  fun pairs s => ⟨addChain_length pairs s, addChain_exactSum pairs s⟩

/-- Settles O28: V as signs, the sign of the result against the range of the signed sum, and the other spelling of V. -/
theorem overflowIsTheSignedRangeTest : Obligations.OverflowIsTheSignedRangeTest := by
  intro value s signed t
  obtain ⟨hA, -, hV, -⟩ := adcCommon_addsWithCarry value s
  have hsigns : t.P.getLsbD 6 = decide (s.A.msb = value.msb ∧ t.A.msb = !s.A.msb) :=
    hV.trans (decide_eq_decide.2 (sameSignIn_otherOut_iff_msb s.A value t.A))
  refine ⟨?_, hsigns.trans (decide_eq_decide.2 (differsFromBoth_iff_msb s.A value t.A).symm)⟩
  rw [hsigns, decide_eq_true_iff]
  exact signs_iff_signedSum_outOfRange hA

/-- Settles O29: A and C of the outcome of R81 are the exact sum. -/
theorem resultAndCarryAreTheExactSum : Obligations.ResultAndCarryAreTheExactSum :=
  fun value s => addsWithCarry_exactSum (adcCommon_addsWithCarry value s)

/-- Settles O31: the outcome of R81 fixes A, C, Z, V and N by these three. -/
theorem adcDependsOnAccumulatorCarryAndOperandAlone : Obligations.AdcDependsOnAccumulatorCarryAndOperandAlone :=
  fun value s t hA hcarry =>
    addsWithCarry_agree hA hcarry (adcCommon_addsWithCarry value s) (adcCommon_addsWithCarry value t)

end Sys2Proof.Proofs
end

section
/-! PROOFS. The eight variants: bytes, reads and effect, and what they leave unchanged (41_adc.md R85 to R93). -/

namespace Sys2Proof

open Machine (invoke adcCommon exec exec_eq operandBus adcCommon_addsWithCarry)
open Claims (AddsWithCarry)

/-- The exposed operation that performs an instruction (30_encoding.md R45). -/
def Instr.operation : Instr → Machine.Operation
  | .adcImm v => .adcImm v
  | .adcZero a => .adcZero a
  | .adcZeroX a => .adcZeroX a
  | .adcAbs a => .adcAbs a
  | .adcAbsX a => .adcAbsX a
  | .adcAbsY a => .adcAbsY a
  | .adcIndX a => .adcIndX a
  | .adcIndY a => .adcIndY a

/-- Invoked as an operation, a variant resolves its operand and performs the common operation on it (41_adc.md R80). -/
theorem Instr.invoke_operation (i : Instr) (s : Machine.State) :
    invoke i.operation s = (.unit, adcCommon (operandBus i s).value s) := by
  cases i <;> rfl

/-- Every variant completes, executed or invoked, with the outcome of R81 on the operand that its reads give. -/
theorem Instr.exec_and_invoke_addWithCarry (i : Instr) (s : Machine.State) :
    ∃ t, exec i s = .next t ∧ invoke i.operation s = (.unit, t) ∧ AddsWithCarry s (operandBus i s).value t :=
  ⟨adcCommon (operandBus i s).value s, exec_eq i s, i.invoke_operation s, adcCommon_addsWithCarry _ s⟩

end Sys2Proof

namespace Sys2Proof.Machine

open Sys2Proof.Claims (addr AddsWithCarry)

/-! ### Operand bytes and effective addresses in numbers -/

theorem lo8_eq_ofNat (w : Word) : lo8 w = BitVec.ofNat 8 w.toNat :=
  BitVec.eq_of_toNat_eq ((lo8_toNat w).trans (BitVec.toNat_ofNat w.toNat 8).symm)

theorem hi8_eq_ofNat (w : Word) : hi8 w = BitVec.ofNat 8 (w.toNat / 256) := by
  have := w.isLt
  apply BitVec.eq_of_toNat_eq
  rw [hi8_toNat, BitVec.toNat_ofNat]
  omega

theorem absIdx_eq_addr (address : Word) (idx : Byte) :
    absIdx address idx = addr ((address.toNat + idx.toNat) % 65536) := by
  apply eq_addr_of_toNat
  rw [absIdx_toNat, Nat.mod_mod]

theorem hiLo_eq_addr (hi lo : Byte) : hiLo hi lo = addr (hi.toNat * 256 + lo.toNat) := by
  have := (hiLo hi lo).isLt
  apply eq_addr_of_toNat
  rw [← hiLo_toNat]
  omega

/-- The location after an indexed zero-page location: both sums wrap in the zero page (R65). -/
theorem zext16_add_add_one (a b : Byte) : zext16 (a + b + 1) = addr (((a.toNat + b.toNat) % 256 + 1) % 256) := by
  rw [zext16_add_one, BitVec.toNat_add]

/-- The pointer of (indirect,X) in numbers (R65). -/
theorem indirectX_eq_addr (s : State) (address x : Byte) :
    let p := (address.toNat + x.toNat) % 256
    indirectX s.mem address x =
      addr ((s.memRead (addr ((p + 1) % 256))).toNat * 256 + (s.memRead (addr p)).toNat) := by
  intro p
  have hp : addr p = zext16 (address + x) := (zext16_add address x).symm
  have hp1 : addr ((p + 1) % 256) = zext16 (address + x + 1) := (zext16_add_add_one address x).symm
  rw [hp, hp1]
  exact hiLo_eq_addr _ _

/-- The effective address of (indirect),Y in numbers (R66). -/
theorem indirectY_eq_addr (s : State) (address y : Byte) :
    let ptr := (s.memRead (addr ((address.toNat + 1) % 256))).toNat * 256 + (s.memRead (addr address.toNat)).toNat
    indirectY s.mem address y = addr ((ptr + y.toNat) % 65536) := by
  rw [← zext16_eq_addr, ← zext16_add_one]
  apply eq_addr_of_toNat
  rw [indirectY_toNat_eq_pointer_add, hiLo_toNat, Nat.mod_mod]
  rfl

/-! ### The frame -/

/-- The outcome of R81 keeps everything that no instruction writes (R93). -/
theorem addsWithCarry_sameInert {s t : State} {value : Byte} (h : AddsWithCarry s value t) : SameInert s t := by
  obtain ⟨-, -, -, -, -, hkept, hX, hY, -, hmem⟩ := h
  exact ⟨hX, hY, hkept, hmem⟩

theorem sameInert_refl (s : State) : SameInert s s := ⟨rfl, rfl, rfl, rfl⟩

theorem sameInert_trans {s t u : State} (hst : SameInert s t) (htu : SameInert t u) : SameInert s u := by
  obtain ⟨hX, hY, hP, hmem⟩ := hst
  obtain ⟨hX', hY', hP', hmem'⟩ := htu
  exact ⟨hX'.trans hX, hY'.trans hY, hP'.trans hP, hmem'.trans hmem⟩

theorem sameInert_advancePC (s : State) (n : Nat) : SameInert s (s.advancePC n) := ⟨rfl, rfl, rfl, rfl⟩

/-- A step moves PC and performs the common operation, and neither writes inert state. -/
theorem step_sameInert {s t : State} (h : step s = .next t) : SameInert s t := by
  obtain ⟨i, -, rfl⟩ := step_next h
  exact sameInert_trans (sameInert_advancePC s i.length) (addsWithCarry_sameInert (adcCommon_addsWithCarry _ _))

/-! ### Harness runs -/

theorem harnessRun_succ_of_next {s t : State} (h : step s = .next t) (n : Nat) :
    harnessRun (n + 1) s = harnessRun n t := by
  rw [harnessRun, h]

theorem harnessRun_succ_of_refused {s : State} {r : Refusal} (h : step s = .refused r) (n : Nat) :
    harnessRun (n + 1) s = .refused s r := by
  rw [harnessRun, h]

theorem harnessRun_sameInert (n : Nat) (s : State) : SameInert s (harnessRun n s).final := by
  induction n generalizing s with
  | zero => exact sameInert_refl s
  | succ n ih =>
    cases h : step s with
    | next t => rw [harnessRun_succ_of_next h]; exact sameInert_trans (step_sameInert h) (ih t)
    | fault f => exact nomatch f
    | refused r => rw [harnessRun_succ_of_refused h]; exact sameInert_refl s

end Sys2Proof.Machine

namespace Sys2Proof.Proofs

open Sys2Proof.Machine
open Sys2Proof.Claims (addr)

/-- Settles O5: a step writes no inert state, memory included, so the canonical form stays too. -/
theorem stepKeepsCanonicalMemoryAndInertState : Obligations.StepKeepsCanonicalMemoryAndInertState := by
  intro s t hwf h
  obtain ⟨-, -, -, hmem⟩ := step_sameInert h
  refine ⟨?_, step_sameInert h⟩
  rw [CanonicalMemory, hmem]
  exact hwf

/-- Settles O7, by induction on the fuel: every step of the run keeps the inert state. -/
theorem harnessRunKeepsInertState : Obligations.HarnessRunKeepsInertState := harnessRun_sameInert

/-- Settles O32. -/
theorem adcImmediateAddsItsOperand : Obligations.AdcImmediateAddsItsOperand :=
  fun value s => ⟨rfl, rfl, rfl, (Instr.adcImm value).exec_and_invoke_addWithCarry s⟩

/-- Settles O33: the effective address is the operand byte, zero-extended. -/
theorem adcZeroPageAddsTheZeroPageByte : Obligations.AdcZeroPageAddsTheZeroPageByte := by
  intro address s
  rw [← zext16_eq_addr]
  exact ⟨rfl, rfl, rfl, (Instr.adcZero address).exec_and_invoke_addWithCarry s⟩

/-- Settles O34: the effective address is the byte sum, zero-extended. -/
theorem adcZeroPageXAddsTheIndexedByte : Obligations.AdcZeroPageXAddsTheIndexedByte := by
  intro address s
  rw [← zext16_add]
  exact ⟨rfl, rfl, rfl, (Instr.adcZeroX address).exec_and_invoke_addWithCarry s⟩

/-- Settles O35: the effective address is the operand word. -/
theorem adcAbsoluteAddsTheAddressedByte : Obligations.AdcAbsoluteAddsTheAddressedByte := by
  intro address s
  rw [← lo8_eq_ofNat, ← hi8_eq_ofNat]
  exact ⟨rfl, rfl, rfl, (Instr.adcAbs address).exec_and_invoke_addWithCarry s⟩

/-- Settles O36: the effective address is the word sum with X. -/
theorem adcAbsoluteXAddsTheIndexedByte : Obligations.AdcAbsoluteXAddsTheIndexedByte := by
  intro address s
  rw [← lo8_eq_ofNat, ← hi8_eq_ofNat, ← absIdx_eq_addr]
  exact ⟨rfl, rfl, rfl, (Instr.adcAbsX address).exec_and_invoke_addWithCarry s⟩

/-- Settles O37: the effective address is the word sum with Y. -/
theorem adcAbsoluteYAddsTheIndexedByte : Obligations.AdcAbsoluteYAddsTheIndexedByte := by
  intro address s
  rw [← lo8_eq_ofNat, ← hi8_eq_ofNat, ← absIdx_eq_addr]
  exact ⟨rfl, rfl, rfl, (Instr.adcAbsY address).exec_and_invoke_addWithCarry s⟩

/-- Settles O38: the effective address is the pointer that `indirectX` fetches. -/
theorem adcIndirectXAddsThePointedByte : Obligations.AdcIndirectXAddsThePointedByte := by
  intro address s p p1 ea
  have hp : addr p = zext16 (address + s.X) := (zext16_add address s.X).symm
  have hp1 : addr p1 = zext16 (address + s.X + 1) := (zext16_add_add_one address s.X).symm
  have hea : ea = indirectX s.mem address s.X := (indirectX_eq_addr s address s.X).symm
  rw [hp, hp1, hea]
  exact ⟨rfl, rfl, rfl, (Instr.adcIndX address).exec_and_invoke_addWithCarry s⟩

/-- Settles O39: the effective address is the one that `indirectY` makes of the pointer and Y. -/
theorem adcIndirectYAddsThePointedByte : Obligations.AdcIndirectYAddsThePointedByte := by
  intro address s a1 ptr ea
  have ha1 : addr a1 = zext16 (address + 1) := (zext16_add_one address).symm
  have hea : ea = indirectY s.mem address s.Y := (indirectY_eq_addr s address s.Y).symm
  rw [ha1, hea, ← zext16_eq_addr]
  exact ⟨rfl, rfl, rfl, (Instr.adcIndY address).exec_and_invoke_addWithCarry s⟩

/-- Settles O40: every instruction has the outcome of R81, and that keeps all of this. -/
theorem adcFrame : Obligations.AdcFrame := by
  intro i s t h
  obtain ⟨-, -, -, -, -, hkept, hX, hY, hPC, hmem⟩ := exec_next h ▸ adcCommon_addsWithCarry (operandBus i s).value s
  refine ⟨hX, hY, hPC, hkept, fun a => ?_, hmem⟩
  rw [State.memRead, hmem, State.memRead]

end Sys2Proof.Proofs
end

section
/-! PROOFS. Decoder and encoder are inverse, and which bytes are opcodes (30_encoding.md sections 2 and 3). -/

namespace Sys2Proof

open Claims (adcOpcodes)

/-- The bytes without a mode are the ones outside the table (R50). -/
theorem modeOfOpcode_eq_none_iff (op : Byte) : modeOfOpcode op = none ↔ op ∉ adcOpcodes := by
  revert op; decide

theorem decode_of_refused {op : Byte} (h : modeOfOpcode op = none) (rest : List Byte) :
    decode (op :: rest) = .error (.refusedOpcode op) := by
  simp only [decode, h]

/-- An opcode byte and operand bytes that assemble decode to what they assemble to, and leave the bytes after them. -/
theorem decode_of_assemble {op : Byte} {bs : List Byte} {i : Instr} (hmode : modeOfOpcode op = some i.mode)
    (hasm : assemble i.mode (bs.take i.mode.format.operandBytes) = some i) :
    decode (op :: bs) = .ok (i, bs.drop i.mode.format.operandBytes) := by
  simp only [decode, hmode, hasm]

theorem encode_length (i : Instr) : (encode i).length = i.length := by
  obtain ⟨-, -, hlen, -⟩ := Laws.EncodingShape.of_instr i
  exact hlen

theorem decode_encode_append (i : Instr) (rest : List Byte) : decode (encode i ++ rest) = .ok (i, rest) := by
  have htake : (i.operandBytes ++ rest).take i.mode.format.operandBytes = i.operandBytes :=
    List.take_left' (operandBytes_length i)
  have hdrop : (i.operandBytes ++ rest).drop i.mode.format.operandBytes = rest :=
    List.drop_left' (operandBytes_length i)
  have hdecode := decode_of_assemble (bs := i.operandBytes ++ rest) (modeOfOpcode_opcode i.mode)
    (htake.symm ▸ assemble_operandBytes i)
  rwa [hdrop] at hdecode

theorem encode_append_of_decode {bs rest : List Byte} {i : Instr} (h : decode bs = .ok (i, rest)) :
    encode i ++ rest = bs := by
  cases bs with
  | nil => contradiction
  | cons op bs =>
    obtain ⟨hmode, hasm⟩ := mode_and_assemble_of_decode h
    rw [decode_of_assemble hmode hasm] at h
    obtain rfl : bs.drop i.mode.format.operandBytes = rest := congrArg Prod.snd (Except.ok.inj h)
    rw [encode, opcode_of_modeOfOpcode hmode, (operandBytes_of_assemble hasm).2, List.cons_append, List.take_append_drop]

/-- A call is ill-formed when the caller supplies another number of operand bytes than the format takes (R46). -/
theorem RawCall.wellFormed_eq_false_iff (c : RawCall) :
    c.wellFormed = false ↔ c.operand.length ≠ c.mode.format.operandBytes := beq_eq_false_iff_ne

end Sys2Proof

namespace Sys2Proof.Proofs

open Sys2Proof.Machine

/-- Settles O46: the opcode byte gives the mode back, and the operand bytes assemble to the instruction they came from. -/
theorem decodeOfEncodeIsTheInstruction : Obligations.DecodeOfEncodeIsTheInstruction :=
  fun i rest _ => decode_encode_append i rest

/-- Settles O47: the mode's opcode is the first byte, and assembled operand bytes come back as they were. -/
theorem encodeOfDecodeIsTheBytes : Obligations.EncodeOfDecodeIsTheBytes :=
  fun _ _ _ => encode_append_of_decode

/-- Settles O43: the eight rows by computation, the other bytes by their having no mode. -/
theorem opcodeTableIsTheEightRows : Obligations.OpcodeTableIsTheEightRows := by
  refine ⟨by decide, fun op rest hop => ?_, by decide +kernel⟩
  exact decode_of_refused ((modeOfOpcode_eq_none_iff op).2 hop) rest

/-- Settles O45: assembly fails exactly on the wrong number of bytes. -/
theorem misSizedOperandIsNoInstruction : Obligations.MisSizedOperandIsNoInstruction := by
  intro c
  refine ⟨?_, fun i hi => ⟨i.wellFormed_all, (operandBytes_of_assemble hi).1⟩⟩
  rw [RawCall.wellFormed_eq_false_iff, assemble_eq_none]

/-- Settles O48: each word is the encoding of its instruction, or begins with a byte that has no mode. -/
theorem specWordsDecode : Obligations.SpecWordsDecode := by
  refine ⟨decode_encode_append (.adcImm 0x05) [], decode_encode_append (.adcAbs 0x1234) [],
    decode_encode_append (.adcZero 0x10) [0x00], decode_encode_append (.adcIndX 0xFE) [],
    decode_encode_append (.adcIndY 0x40) [], decode_encode_append (.adcZeroX 0x10) [],
    decode_encode_append (.adcAbsX 0x1234) [], decode_encode_append (.adcAbsY 0x1234) [],
    decode_of_refused (by decide) [], decode_of_refused (by decide) [0x10]⟩

end Sys2Proof.Proofs
end

section
/-! PROOFS. The harness step: what it runs, where it stops, and which bytes it depends on (30_encoding.md section 4). -/

namespace Sys2Proof.Machine

open Sys2Proof.Claims (addr adcOpcodes)

/-! ### The step by what stands at PC -/

theorem step_of_not_mem {s : State} (h : s.memRead s.PC ∉ adcOpcodes) :
    step s = .refused (.refusedOpcode s.PC (s.memRead s.PC)) := by
  obtain ⟨-, hstep⟩ | ⟨m, i, hmode, -⟩ := step_cases s
  · exact hstep
  · rw [(modeOfOpcode_eq_none_iff _).2 h] at hmode
    contradiction

theorem step_of_mem {s : State} (h : s.memRead s.PC ∈ adcOpcodes) : ∃ t, step s = .next t := by
  obtain ⟨hmode, -⟩ | ⟨m, i, -, -, -, hstep⟩ := step_cases s
  · exact absurd h ((modeOfOpcode_eq_none_iff _).1 hmode)
  · exact ⟨_, hstep.trans (exec_eq i _)⟩

/-- A step is refused by the byte at PC, one outside the eight (R54). -/
theorem step_refused {s : State} {r : Refusal} (h : step s = .refused r) :
    r = .refusedOpcode s.PC (s.memRead s.PC) ∧ s.memRead s.PC ∉ adcOpcodes := by
  have hop : s.memRead s.PC ∉ adcOpcodes := fun hmem => by
    obtain ⟨t, ht⟩ := step_of_mem hmem
    rw [ht] at h
    contradiction
  rw [step_of_not_mem hop] at h
  exact ⟨(Host.Outcome.refused.inj h).symm, hop⟩

/-- The PC advance as the harness's pseudocode writes it, modulo 65536 (R56). -/
theorem State.advancePC_eq_setPC_addr (s : State) (n : Nat) :
    s.advancePC n = s.setPC (addr ((s.PC.toNat + n) % 65536)) := by
  have hpc : s.PC + BitVec.ofNat 16 n = addr ((s.PC.toNat + n) % 65536) := by
    apply eq_addr_of_toNat
    rw [← State.advancePC_PC, State.advancePC_PC_toNat, Nat.mod_mod]
  rw [State.advancePC, hpc]

theorem step_of_assemble {s : State} {i : Instr} (hmode : modeOfOpcode (s.memRead s.PC) = some i.mode)
    (hasm : assemble i.mode (s.mem.readBytes (s.PC + 1) i.mode.format.operandBytes) = some i) :
    step s = exec i (s.advancePC i.length) := by
  obtain ⟨hnone, -⟩ | ⟨m, j, hmode', -, hasm', hstep⟩ := step_cases s
  · rw [hmode] at hnone
    contradiction
  · obtain rfl : i.mode = m := Option.some.inj (hmode.symm.trans hmode')
    obtain rfl : i = j := Option.some.inj (hasm.symm.trans hasm')
    exact hstep

/-- When an instruction's bytes stand at PC, the step runs it with PC past them (R57). -/
theorem step_of_readBytes_eq_encode {s : State} {i : Instr} (h : s.mem.readBytes s.PC i.length = encode i) :
    step s = exec i (s.setPC (addr ((s.PC.toNat + i.length) % 65536))) := by
  rw [Instr.length, Mode.length, Nat.add_comm] at h
  obtain ⟨hop, hoperand⟩ := List.cons.inj h
  rw [← State.advancePC_eq_setPC_addr]
  apply step_of_assemble
  · rw [State.memRead, hop, modeOfOpcode_opcode]
  · rw [hoperand, assemble_operandBytes]

/-- The same for an instruction of known length. -/
theorem step_of_encode_at_PC {s : State} {i : Instr} {n : Nat} (hlen : i.length = n)
    (h : s.mem.readBytes s.PC n = encode i) : step s = exec i (s.setPC (addr ((s.PC.toNat + n) % 65536))) := by
  subst hlen
  exact step_of_readBytes_eq_encode h

theorem Instr.length_le_three (i : Instr) : i.length ≤ 3 := by
  have := i.mode.length_eq_two_or_three
  rw [Instr.length]
  omega

/-- What the three bytes from PC decode to is what the step runs. -/
theorem step_of_decode {s : State} {i : Instr} {rest : List Byte}
    (h : decode (s.mem.readBytes s.PC 3) = .ok (i, rest)) :
    step s = exec i (s.setPC (addr ((s.PC.toNat + i.length) % 65536))) := by
  apply step_of_readBytes_eq_encode
  rw [← Memory.take_readBytes s.mem s.PC (Instr.length_le_three i), ← encode_append_of_decode h]
  exact List.take_left' (encode_length i)

/-- The first three bytes from PC, each at its own wrapping address (R53, R55). -/
theorem readBytes_three (s : State) :
    s.mem.readBytes s.PC 3 = [s.memRead s.PC, s.memRead (addr ((s.PC.toNat + 1) % 65536)),
      s.memRead (addr ((s.PC.toNat + 2) % 65536))] := by
  have hnext (k : Nat) : s.PC + BitVec.ofNat 16 k = addr ((s.PC.toNat + k) % 65536) :=
    congrArg (fun t : State => t.PC) (s.advancePC_eq_setPC_addr k)
  have htwo : s.PC + 1 + 1 = s.PC + 2 := BitVec.add_assoc s.PC 1 1
  rw [← hnext, ← hnext]
  simp only [Memory.readBytes, htwo]
  rfl

/-! ### Bytes placed in memory -/

/-- Storing bytes leaves every address outside them alone. -/
theorem Memory.read_writeBytes_other {bs : List Byte} {m : Memory} {a b : Word}
    (h : ∀ k < bs.length, b ≠ a + BitVec.ofNat 16 k) : (m.writeBytes a bs).read b.toNat = m.read b.toNat := by
  induction bs generalizing m a with
  | nil => rfl
  | cons v bs ih =>
    have hfirst : b ≠ a := by simpa using h 0 (Nat.succ_pos _)
    rw [Memory.writeBytes, ih, Memory.read_write_other fun e => hfirst (BitVec.eq_of_toNat_eq e)]
    intro k hk
    have hne := h (k + 1) (Nat.succ_lt_succ hk)
    rwa [Nat.add_comm, BitVec.ofNat_add, ← BitVec.add_assoc] at hne

/-- Stored bytes read back, as long as they do not run around all of memory. -/
theorem Memory.readBytes_writeBytes {bs : List Byte} {m : Memory} (a : Word) (hm : m.wf = true)
    (hlen : bs.length ≤ Config.addressCount) : (m.writeBytes a bs).readBytes a bs.length = bs := by
  induction bs generalizing m a with
  | nil => rfl
  | cons v bs ih =>
    have hlen' : bs.length + 1 ≤ 65536 := hlen
    have hfirst : ((m.write a.toNat v).writeBytes (a + 1) bs).read a.toNat = v := by
      rw [Memory.read_writeBytes_other, Memory.read_write_same hm]
      intro k hk heq
      bv_omega
    rw [Memory.writeBytes, List.length_cons, Memory.readBytes, hfirst,
      ih (a + 1) (Memory.write_wf hm a.isLt) (Nat.le_of_succ_le hlen)]

/-- The fetch finds the bytes placed at PC. -/
theorem placeAtPC_readBytes {s : State} (hs : CanonicalMemory s) {bs : List Byte} (hlen : bs.length ≤ 3) :
    (placeAtPC s bs).mem.readBytes (placeAtPC s bs).PC bs.length = bs :=
  Memory.readBytes_writeBytes s.PC hs (hlen.trans (by decide))

theorem tableBytes_length (nbits w : Nat) : (tableBytes nbits w).length = 3 := rfl

/-- A table word that stands for an instruction is three bytes that decode to it. -/
theorem decode_of_decodeTableWord {nbits w : Nat} {i : Instr} (h : decodeTableWord nbits w = some i) :
    ∃ rest, decode (tableBytes nbits w) = .ok (i, rest) := by
  rw [decodeTableWord] at h
  split at h
  next j rest hdecode =>
    obtain rfl : j = i := Option.some.inj h
    exact ⟨rest, hdecode⟩
  next => contradiction

/-! ### Ends of runs -/

/-- A refused run is over, and it was the byte at its last PC that ended it. -/
theorem harnessRun_refused {n m : Nat} {s t : State} {r : Refusal} (h : harnessRun n s = .refused t r) (hle : n ≤ m) :
    harnessRun m s = .refused t r ∧ step t = .refused r := by
  induction n generalizing s m with
  | zero => contradiction
  | succ n ih =>
    obtain ⟨m, rfl⟩ := Nat.exists_eq_add_one_of_ne_zero (Nat.ne_zero_of_lt hle)
    cases hstep : step s with
    | next u =>
      rw [harnessRun_succ_of_next hstep] at h ⊢
      exact ih h (Nat.le_of_succ_le_succ hle)
    | fault f => exact nomatch f
    | refused r' =>
      rw [harnessRun_succ_of_refused hstep] at h ⊢
      obtain ⟨rfl, rfl⟩ := RunEnd.refused.inj h
      exact ⟨rfl, hstep⟩

/-- An end is normal exactly at the PC of its refusal (70_reset_and_hazards.md R124). -/
theorem normalAt_refused_iff (s : State) (pc : Word) (op : Byte) (a : Word) :
    (RunEnd.refused s (.refusedOpcode pc op)).normalAt a = true ↔ a = pc :=
  beq_iff_eq.trans eq_comm

/-! ### The bus account of the step -/

theorem stepBus_of_refused {s : State} (h : modeOfOpcode (s.memRead s.PC) = none) :
    stepBus s = { value := .refused (.refusedOpcode s.PC (s.memRead s.PC)), reads := [s.PC] } := by
  have hop : (busRead s.mem s.PC).value = s.memRead s.PC := rfl
  simp only [stepBus, Traced.andThen, hop, h]
  rfl

/-- A computation over memory whose value and reads are the same in every memory that agrees on the bytes it reads. -/
def ReadsDecide {α : Type} (f : Memory → Traced α) : Prop :=
  ∀ m m' : Memory, (∀ a ∈ (f m).reads, m.read a.toNat = m'.read a.toNat) → f m' = f m

theorem readsDecide_ret {α : Type} (v : α) : ReadsDecide fun _ => Traced.ret v := fun _ _ _ => rfl

theorem readsDecide_busRead (a : Word) : ReadsDecide fun m => busRead m a := by
  intro m m' h
  have hread : m.read a.toNat = m'.read a.toNat := h a (List.mem_singleton_self a)
  simp only [busRead, hread]

/-- Computations of this kind in a row are of this kind: the second starts from a value the first's reads decide. -/
theorem ReadsDecide.andThen {α β : Type} {f : Memory → Traced α} {g : Memory → α → Traced β} (hf : ReadsDecide f)
    (hg : ∀ v, ReadsDecide fun m => g m v) : ReadsDecide fun m => (f m).andThen (g m) := by
  intro m m' h
  simp only [Traced.andThen, List.mem_append] at h ⊢
  have hfirst : f m' = f m := hf m m' fun a ha => h a (.inl ha)
  have hsecond : g m' (f m).value = g m (f m).value := hg (f m).value m m' fun a ha => h a (.inr ha)
  rw [hfirst, hsecond]

theorem readsDecide_indirectXBus (address x : Byte) : ReadsDecide fun m => indirectXBus m address x :=
  (readsDecide_busRead _).andThen fun _ => (readsDecide_busRead _).andThen fun _ => readsDecide_ret _

theorem readsDecide_indirectYBus (address y : Byte) : ReadsDecide fun m => indirectYBus m address y :=
  (readsDecide_busRead _).andThen fun _ => (readsDecide_busRead _).andThen fun _ => readsDecide_ret _

/-- With the registers fixed, an operand and its reads are decided by the bytes read (40_addressing.md R77). -/
theorem readsDecide_operandBus (i : Instr) (r : Registers) : ReadsDecide fun m => operandBus i { r with mem := m } := by
  cases i with
  | adcImm v => exact readsDecide_ret v
  | adcZero a => exact readsDecide_busRead (zext16 a)
  | adcZeroX a => exact readsDecide_busRead (zeroIdx a r.X)
  | adcAbs a => exact readsDecide_busRead a
  | adcAbsX a => exact readsDecide_busRead (absIdx a r.X)
  | adcAbsY a => exact readsDecide_busRead (absIdx a r.Y)
  | adcIndX a => exact (readsDecide_indirectXBus a r.X).andThen readsDecide_busRead
  | adcIndY a => exact (readsDecide_indirectYBus a r.Y).andThen readsDecide_busRead

/-- The same of the operand bytes that follow the opcode. -/
theorem readsDecide_operandBytesBus (f : Format) (r : Registers) :
    ReadsDecide fun m => operandBytesBus { r with mem := m } f := by
  cases f with
  | imm8 | zp8 => exact (readsDecide_busRead (r.PC + 1)).andThen fun b1 => readsDecide_ret [b1]
  | abs16 =>
    exact (readsDecide_busRead (r.PC + 1)).andThen fun b1 => (readsDecide_busRead (r.PC + 2)).andThen fun b2 =>
      readsDecide_ret [b1, b2]

/-- The registers after the common operation are decided by those before it. -/
theorem adcCommon_toRegisters_mem (value : Byte) (r : Registers) (m m' : Memory) :
    (adcCommon value { r with mem := m }).toRegisters = (adcCommon value { r with mem := m' }).toRegisters := rfl

/-- Where a fetch succeeds, its bytes are the same in every memory that agrees on the addresses it reads. -/
theorem readBytes_eq_of_agree {r : Registers} {m m' : Memory} {f : Format}
    (h : ∀ a ∈ [r.PC + 1, r.PC + 2].take f.operandBytes, m.read a.toNat = m'.read a.toNat) :
    m'.readBytes (r.PC + 1) f.operandBytes = m.readBytes (r.PC + 1) f.operandBytes := by
  have hbus := readsDecide_operandBytesBus f r m m'
  simp only [operandBytesBus_eq] at hbus
  exact congrArg Traced.value (hbus h)

/-- A step that runs an instruction runs the same one, on the same operand and with the same reads, in every memory that agrees on
the bytes it reads. -/
theorem stepBus_agree {r : Registers} {m m' : Memory} {i : Instr} (hmode : modeOfOpcode (m.read r.PC.toNat) = some i.mode)
    (hasm : assemble i.mode (m.readBytes (r.PC + 1) i.mode.format.operandBytes) = some i)
    (h : ∀ a ∈ (stepBus { r with mem := m }).reads, m.read a.toNat = m'.read a.toNat) :
    modeOfOpcode (m'.read r.PC.toNat) = some i.mode ∧
      assemble i.mode (m'.readBytes (r.PC + 1) i.mode.format.operandBytes) = some i ∧
      operandBus i { r with mem := m' } = operandBus i { r with mem := m } := by
  have hreads : (stepBus { r with mem := m }).reads =
      r.PC :: ([r.PC + 1, r.PC + 2].take i.mode.format.operandBytes ++ (operandBus i { r with mem := m }).reads) := by
    rw [stepBus_of_assemble (s := { r with mem := m }) hmode hasm, Instr.length, Mode.length, Nat.add_comm]
    rfl
  rw [hreads, List.forall_mem_cons, List.forall_mem_append] at h
  obtain ⟨hop, hoperandBytes, hoperand⟩ := h
  rw [← hop, readBytes_eq_of_agree hoperandBytes]
  exact ⟨hmode, hasm, readsDecide_operandBus i r m m' hoperand⟩

end Sys2Proof.Machine

namespace Sys2Proof.Proofs

open Sys2Proof.Machine
open Sys2Proof.Claims (addr)

/-- Settles O57: the traced step refuses where the step does, and otherwise runs the instruction its reads assemble to. -/
theorem busPseudocodeRefinesTheStep : Obligations.BusPseudocodeRefinesTheStep := by
  intro s
  obtain ⟨hmode, hstep⟩ | ⟨m, i, hmode, rfl, hasm, hstep⟩ := step_cases s
  · rw [stepBus_of_refused hmode, hstep]
  · rw [stepBus_of_assemble hmode hasm, hstep, Instr.length]

/-- Settles O58: the byte at PC decides whether the step is refused, the operand bytes which instruction it runs, and the operand's
bytes what that one adds; no other byte is read. -/
theorem stepDependsOnlyOnTheBytesItReads : Obligations.StepDependsOnlyOnTheBytesItReads := by
  rintro ⟨r, m⟩ ⟨r', m'⟩ hreg hagree
  obtain rfl : r = r' := hreg
  obtain ⟨hmode, hstep⟩ | ⟨_, i, hmode, rfl, hasm, hstep⟩ := step_cases ⟨r, m⟩
  · rw [stepBus_of_refused hmode, List.forall_mem_singleton] at hagree
    have hmode' := hagree ▸ hmode
    refine ⟨?_, .inl ⟨_, hstep, ?_⟩⟩
    · rw [stepBus_of_refused hmode, stepBus_of_refused hmode']
    · rw [hagree]
      exact step_of_not_mem ((modeOfOpcode_eq_none_iff _).1 hmode')
  · obtain ⟨hmode', hasm', hoperand⟩ := stepBus_agree hmode hasm hagree
    refine ⟨?_, .inr ⟨_, _, hstep.trans (exec_eq _ _), (step_of_assemble hmode' hasm').trans (exec_eq _ _), ?_⟩⟩
    · rw [stepBus_of_assemble hmode hasm, stepBus_of_assemble hmode' hasm', hoperand]
    · rw [State.advancePC, State.advancePC, operandBus_setPC, operandBus_setPC, hoperand]
      exact adcCommon_toRegisters_mem _ _ m m'

/-- Settles O54: the placed bytes are the ones that the fetch reads. -/
theorem placedInstructionIsTheOneThatRuns : Obligations.PlacedInstructionIsTheOneThatRuns := by
  intro i s hwf loaded
  refine ⟨placeAtPC_toRegisters s (encode i), fun a ha => ?other, ?runs⟩
  case other =>
    refine Memory.read_writeBytes_other fun k hk => ha k ?_
    rwa [encode_length] at hk
  case runs =>
    have hlen := encode_length i
    have hbytes := placeAtPC_readBytes hwf (hlen.le.trans (Instr.length_le_three i))
    rw [hlen] at hbytes
    exact step_of_readBytes_eq_encode hbytes

/-- Settles O55: the three bytes placed are the ones that the fetch reads, and they decode to the instruction. -/
theorem fetchWordRunsAsItsTableWordDecodes : Obligations.FetchWordRunsAsItsTableWordDecodes := by
  intro nbits w s i hwf h
  obtain ⟨rest, hdecode⟩ := decode_of_decodeTableWord h
  have hlen := tableBytes_length nbits w
  have hbytes := placeAtPC_readBytes hwf hlen.le
  rw [← hbytes, hlen] at hdecode
  exact step_of_decode hdecode

/-- Settles O49. -/
theorem stepRunsTheDecodedInstruction : Obligations.StepRunsTheDecodedInstruction :=
  fun _ _ _ => step_of_decode

/-- Settles O50: for each opcode byte the bytes at PC are the encoding of the instruction that the pseudocode names. -/
theorem harnessStepFollowsThePseudocode : Obligations.HarnessStepFollowsThePseudocode := by
  intro s op b1 b2 word past2 past3
  have hbytes3 : s.mem.readBytes s.PC 3 = [op, b1, b2] := readBytes_three s
  have hbytes2 : s.mem.readBytes s.PC 2 = [op, b1] := by
    rw [← Memory.take_readBytes s.mem s.PC (show 2 ≤ 3 by decide), hbytes3]
    rfl
  have hword : [b1, b2] = [lo8 word, hi8 word] := by
    have hpair : word = hiLo b2 b1 := (hiLo_eq_addr b2 b1).symm
    rw [hpair, lo8_hiLo, hi8_hiLo]
  have run2 (i : Instr) (hlen : i.length = 2) (hoperand : i.operandBytes = [b1]) (h : op = i.mode.opcode) :
      step s = exec i past2 :=
    step_of_encode_at_PC hlen (by rw [hbytes2, encode, hoperand, h])
  have run3 (i : Instr) (hlen : i.length = 3) (hoperand : i.operandBytes = [lo8 word, hi8 word])
      (h : op = i.mode.opcode) : step s = exec i past3 :=
    step_of_encode_at_PC hlen (by rw [hbytes3, encode, hoperand, h, hword])
  exact ⟨step_of_not_mem, run2 (.adcIndX b1) rfl rfl, run2 (.adcZero b1) rfl rfl, run2 (.adcImm b1) rfl rfl,
    run3 (.adcAbs word) rfl rfl, run2 (.adcIndY b1) rfl rfl, run2 (.adcZeroX b1) rfl rfl, run3 (.adcAbsY word) rfl rfl,
    run3 (.adcAbsX word) rfl rfl⟩

/-- Settles O52: the byte at PC decides between a refusal that changes nothing and a next state. -/
theorem unknownOpcodeEndsTheRunUnchanged : Obligations.UnknownOpcodeEndsTheRunUnchanged := by
  intro s
  refine ⟨fun hop => ⟨step_of_not_mem hop, fun n => ?_⟩, step_of_mem⟩
  have hrun := harnessRun_succ_of_refused (step_of_not_mem hop) n
  refine ⟨hrun, fun a => ?_⟩
  rw [EndsNormally, hrun, normalAt_refused_iff]

/-- Settles O53, by induction on the fuel: the refusal is that of the step from the final state. -/
theorem refusedRunIsFinal : Obligations.RefusedRunIsFinal := by
  intro n m s t r h hle
  obtain ⟨hrun, hstep⟩ := harnessRun_refused h hle
  exact ⟨hrun, step_refused hstep⟩

end Sys2Proof.Proofs
end

section
/-! PROOFS. The status byte: its fields, its bitwise operations, and the interactions that leave it alone (10_state.md R10 to R28). -/

namespace Sys2Proof.Machine

open Sys2Proof.Claims (leavesStatus)

theorem Status.bField_toNat (p : Byte) : (Status.bField p).toNat = p.toNat / 16 % 4 := by
  rw [Status.bField, BitVec.extractLsb'_toNat, Nat.shiftRight_eq_div_pow]

theorem FlagSet.getLsbD_not (p : Byte) (i : Fin 8) : (FlagSet.not p).getLsbD i = !p.getLsbD i :=
  getLsbD_maskComplement p i

/-- Equality of status values is equality of all eight bits (R27). -/
theorem FlagSet.equal_eq_true_iff (p q : Byte) :
    FlagSet.equal p q = true ↔ ∀ i : Fin 8, p.getLsbD i = q.getLsbD i := by
  rw [FlagSet.equal, beq_iff_eq]
  exact ⟨fun h _ => by rw [h], fun h => BitVec.eq_of_getLsbD_eq fun i hi => h ⟨i, hi⟩⟩

/-- Of the exposed operations only the adds, `construct` and `reset` write P. -/
theorem invoke_P_of_leavesStatus {op : Operation} (h : leavesStatus (.invoke op) = true) (s : State) :
    (invoke op s).2.P = s.P := by
  cases op with
  | adcCommon _ | adcImm _ | adcZero _ | adcZeroX _ | adcAbs _ | adcAbsX _ | adcAbsY _ | adcIndX _ | adcIndY _ | construct
  | reset => contradiction
  | _ => rfl

/-- Of the host's other interactions only a write of P and a reset do. -/
theorem hostAct_P_of_leavesStatus {k : HostAction} (h : leavesStatus k = true) (s : State) : (hostAct k s).2.P = s.P := by
  cases k with
  | writeReg r v =>
    cases r with
    | P => contradiction
    | A | X | Y => rfl
  | reset => contradiction
  | invoke op => exact invoke_P_of_leavesStatus h s
  | _ => rfl

theorem hostRun_P_of_leavesStatus {hs : List HostAction} (h : ∀ k ∈ hs, leavesStatus k = true) (s : State) :
    (hostRun hs s).2.P = s.P :=
  hostRun_induction (motive := fun t => t.P = s.P)
    (fun k hk t ht => (hostAct_P_of_leavesStatus (h k hk) t).trans ht) rfl

end Sys2Proof.Machine

namespace Sys2Proof.Proofs

open Sys2Proof.Machine

/-- Settles O9: no interaction of the run writes P after the host did. -/
theorem statusByteRoundTrips : Obligations.StatusByteRoundTrips := by
  intro v s hs h
  have hP : (hostRun (.writeReg .P v :: hs) s).2.P = v := by
    rw [hostRun_cons, hostRun_P_of_leavesStatus h]
    rfl
  exact congrArg (fun b => (Answer.byte b, (hostRun (.writeReg .P v :: hs) s).2)) hP

/-- Settles O1: the constructed register file, which reset and `construct` put in place. -/
theorem constructedRegisterFileIsAllZero : Obligations.ConstructedRegisterFileIsAllZero :=
  ⟨rfl, rfl, rfl, rfl, rfl, rfl, fun _ => rfl⟩

/-- Settles O4: the empty list is canonical. -/
theorem resetStateMeetsTheInvariant : Obligations.ResetStateMeetsTheInvariant := rfl

/-- Settles O8: each field read as its bits, and the masks counted at each of the eight bits. -/
theorem statusFieldsPartitionTheByte : Obligations.StatusFieldsPartitionTheByte := by
  refine ⟨fun p => ?_, by decide⟩
  exact ⟨Status.carry_eq p, Status.zero_eq p, Status.interruptDisable_eq p, Status.decimal_eq p, Status.bField_toNat p,
    Status.overflow_eq p, Status.negative_eq p⟩

/-- Settles O11: the answers are the model's bitwise operations, read bit by bit. -/
theorem flagSetOperationsAreBitwise : Obligations.FlagSetOperationsAreBitwise := by
  intro p q s
  refine ⟨FlagSet.and p q, FlagSet.or p q, FlagSet.xor p q, FlagSet.not p, FlagSet.equal p q, rfl, rfl, rfl, rfl, rfl,
    fun i => ?_, FlagSet.equal_eq_true_iff p q⟩
  exact ⟨BitVec.getLsbD_and, BitVec.getLsbD_or, BitVec.getLsbD_xor, FlagSet.getLsbD_not p i⟩

end Sys2Proof.Proofs
end
